-- ==== Sys2Proof/Word.lean ====
section
/-! DEFINITION. The machine's word types (00_scope R7, R9): all values are unsigned bit vectors of one fixed width. -/

namespace Sys2Proof

/-- 8 bits: a register, a memory byte, a timer, an immediate `nn`. -/
abbrev Byte := BitVec 8

/-- 16 bits: `pc`, `I`, a stack slot, an instruction word. -/
abbrev Word := BitVec 16

/-- 12 bits: the address operand `nnn`. -/
abbrev Addr12 := BitVec 12

end Sys2Proof
end

