-- ==== Sys2Proof/Syntax.lean ====
section
/-! DEFINITION. The instructions: one constructor per row of spec/opcode_table.json (30_encoding R58), in its order. -/

namespace Sys2Proof

/-- A register number `x` or `y`: a 4-bit field, so always in 0..15 (10_state R18). -/
abbrev Reg := Fin 16

/-- The row count `n` of `Dxyn`: 0..15 (30_encoding R57). -/
abbrev Count := Fin 16

/-- The 35 opcode patterns. A word that matches none of them is no instruction (the fallback no-op, 40_cycle R69). -/
inductive Instr where
  /-- `00E0`, R102. -/
  | cls
  /-- `00EE`, R74. -/
  | ret
  /-- `0nnn` other than `00E0` and `00EE`, R75. -/
  | sys (nnn : Addr12)
  /-- `1nnn`, R76. -/
  | jp (nnn : Addr12)
  /-- `2nnn`, R77. -/
  | call (nnn : Addr12)
  /-- `3xnn`, R78. -/
  | seImm (x : Reg) (nn : Byte)
  /-- `4xnn`, R79. -/
  | sneImm (x : Reg) (nn : Byte)
  /-- `5xy0`, R80. -/
  | seReg (x y : Reg)
  /-- `6xnn`, R83. -/
  | ldImm (x : Reg) (nn : Byte)
  /-- `7xnn`, R84. -/
  | addImm (x : Reg) (nn : Byte)
  /-- `8xy0`, R85. -/
  | ldReg (x y : Reg)
  /-- `8xy1`, R86. -/
  | orReg (x y : Reg)
  /-- `8xy2`, R87. -/
  | andReg (x y : Reg)
  /-- `8xy3`, R88. -/
  | xorReg (x y : Reg)
  /-- `8xy4`, R89. -/
  | addReg (x y : Reg)
  /-- `8xy5`, R90. -/
  | subReg (x y : Reg)
  /-- `8xy6`, R91. -/
  | shrReg (x y : Reg)
  /-- `8xy7`, R92. -/
  | subnReg (x y : Reg)
  /-- `8xyE`, R93. -/
  | shlReg (x y : Reg)
  /-- `9xy0`, R81. -/
  | sneReg (x y : Reg)
  /-- `Annn`, R96. -/
  | ldI (nnn : Addr12)
  /-- `Bnnn`, R82. -/
  | jpV0 (nnn : Addr12)
  /-- `Cxnn`, R94. -/
  | rnd (x : Reg) (nn : Byte)
  /-- `Dxyn`, R103. -/
  | drw (x y : Reg) (n : Count)
  /-- `Ex9E`, R104. -/
  | skp (x : Reg)
  /-- `ExA1`, R105. -/
  | sknp (x : Reg)
  /-- `Fx07`, R106. -/
  | ldVxDT (x : Reg)
  /-- `Fx0A`, R107. -/
  | ldVxK (x : Reg)
  /-- `Fx15`, R108. -/
  | ldDTVx (x : Reg)
  /-- `Fx18`, R109. -/
  | ldSTVx (x : Reg)
  /-- `Fx1E`, R97. -/
  | addIVx (x : Reg)
  /-- `Fx29`, R98. -/
  | ldFVx (x : Reg)
  /-- `Fx33`, R99. -/
  | ldBVx (x : Reg)
  /-- `Fx55`, R100. -/
  | storeRegs (x : Reg)
  /-- `Fx65`, R101. -/
  | loadRegs (x : Reg)
deriving DecidableEq, Repr

end Sys2Proof
end

