-- ==== Sys2Proof/Decode.lean ====
section
/-! DEFINITION. From words to instructions and back (30_encoding.md). The decoder is the dispatch map of rule R58 written
as a list of rows (mask, pattern, and the operands' fields); the encoder is written from the formats of rule R56. -/

namespace Sys2Proof

/-! ## Fields (R55) -/

/-- `x = opcode[11:8]`. -/
def fieldX (w : Word) : Reg := (w.extractLsb' 8 4).toFin

/-- `y = opcode[7:4]`. -/
def fieldY (w : Word) : Reg := (w.extractLsb' 4 4).toFin

/-- `n = opcode[3:0]`. -/
def fieldN (w : Word) : Count := (w.extractLsb' 0 4).toFin

/-- `nn = opcode[7:0]`. -/
def fieldNN (w : Word) : Byte := w.extractLsb' 0 8

/-- `nnn = opcode[11:0]`. -/
def fieldNNN (w : Word) : Addr12 := w.extractLsb' 0 12

/-! ## Row builders: which fields a format's operands are (R56) -/

/-- Format `NNN`. -/
def buildNNN (f : Addr12 → Instr) (w : Word) : Instr := f (fieldNNN w)

/-- Format `XNN`. -/
def buildXNN (f : Reg → Byte → Instr) (w : Word) : Instr := f (fieldX w) (fieldNN w)

/-- Format `XY`. -/
def buildXY (f : Reg → Reg → Instr) (w : Word) : Instr := f (fieldX w) (fieldY w)

/-- Format `XYN`. -/
def buildXYN (f : Reg → Reg → Count → Instr) (w : Word) : Instr := f (fieldX w) (fieldY w) (fieldN w)

/-- Format `X`. -/
def buildX (f : Reg → Instr) (w : Word) : Instr := f (fieldX w)

/-! ## The dispatch map (R58) -/

/-- One row of rule R58. -/
structure Row where
  mask    : Word
  pattern : Word
  build   : Word → Instr

/-- "A row matches when `opcode & mask = match`" (R58). -/
def Row.hits (r : Row) (w : Word) : Bool := w &&& r.mask == r.pattern

/-- Rows 00E0 to 5xy0. `00E0` and `00EE` stand before `0nnn`: that is the priority of rule R59. -/
def rowsControl : List Row :=
  [ ⟨0xFFFF#16, 0x00E0#16, fun _ => .cls⟩,
    ⟨0xFFFF#16, 0x00EE#16, fun _ => .ret⟩,
    ⟨0xF000#16, 0x0000#16, buildNNN .sys⟩,
    ⟨0xF000#16, 0x1000#16, buildNNN .jp⟩,
    ⟨0xF000#16, 0x2000#16, buildNNN .call⟩,
    ⟨0xF000#16, 0x3000#16, buildXNN .seImm⟩,
    ⟨0xF000#16, 0x4000#16, buildXNN .sneImm⟩,
    ⟨0xF00F#16, 0x5000#16, buildXY .seReg⟩ ]

/-- Rows 6xnn to 9xy0. -/
def rowsAlu : List Row :=
  [ ⟨0xF000#16, 0x6000#16, buildXNN .ldImm⟩,
    ⟨0xF000#16, 0x7000#16, buildXNN .addImm⟩,
    ⟨0xF00F#16, 0x8000#16, buildXY .ldReg⟩,
    ⟨0xF00F#16, 0x8001#16, buildXY .orReg⟩,
    ⟨0xF00F#16, 0x8002#16, buildXY .andReg⟩,
    ⟨0xF00F#16, 0x8003#16, buildXY .xorReg⟩,
    ⟨0xF00F#16, 0x8004#16, buildXY .addReg⟩,
    ⟨0xF00F#16, 0x8005#16, buildXY .subReg⟩,
    ⟨0xF00F#16, 0x8006#16, buildXY .shrReg⟩,
    ⟨0xF00F#16, 0x8007#16, buildXY .subnReg⟩,
    ⟨0xF00F#16, 0x800E#16, buildXY .shlReg⟩,
    ⟨0xF00F#16, 0x9000#16, buildXY .sneReg⟩ ]

/-- Rows Annn to ExA1. -/
def rowsIndexDisplayKeys : List Row :=
  [ ⟨0xF000#16, 0xA000#16, buildNNN .ldI⟩,
    ⟨0xF000#16, 0xB000#16, buildNNN .jpV0⟩,
    ⟨0xF000#16, 0xC000#16, buildXNN .rnd⟩,
    ⟨0xF000#16, 0xD000#16, buildXYN .drw⟩,
    ⟨0xF0FF#16, 0xE09E#16, buildX .skp⟩,
    ⟨0xF0FF#16, 0xE0A1#16, buildX .sknp⟩ ]

/-- Rows Fx07 to Fx65. -/
def rowsF : List Row :=
  [ ⟨0xF0FF#16, 0xF007#16, buildX .ldVxDT⟩,
    ⟨0xF0FF#16, 0xF00A#16, buildX .ldVxK⟩,
    ⟨0xF0FF#16, 0xF015#16, buildX .ldDTVx⟩,
    ⟨0xF0FF#16, 0xF018#16, buildX .ldSTVx⟩,
    ⟨0xF0FF#16, 0xF01E#16, buildX .addIVx⟩,
    ⟨0xF0FF#16, 0xF029#16, buildX .ldFVx⟩,
    ⟨0xF0FF#16, 0xF033#16, buildX .ldBVx⟩,
    ⟨0xF0FF#16, 0xF055#16, buildX .storeRegs⟩,
    ⟨0xF0FF#16, 0xF065#16, buildX .loadRegs⟩ ]

/-- The 35 rows, in the order of rule R58. -/
def opcodeRows : List Row := rowsControl ++ rowsAlu ++ rowsIndexDisplayKeys ++ rowsF

/-! ## The decoder -/

/-- Why a word or a list of bytes is no instruction. -/
inductive DecodeReject where
  /-- The word matches no row: unrecognized (R60). The engine runs it as the fallback no-op (R69). -/
  | unrecognized (w : Word)
  /-- Fewer than two bytes were given. -/
  | truncated
deriving DecidableEq, Repr

/-- Decoding one word (R54, R58, R59): the first row that matches. Total: a word without a row is rejected by name. -/
def decode (w : Word) : Except DecodeReject Instr :=
  match opcodeRows.find? (fun r => r.hits w) with
  | some r => .ok (r.build w)
  | none => .error (.unrecognized w)

/-- The big-endian combination of two bytes (20_memory R42). -/
def wordOfBytes (hi lo : Byte) : Word := hi ++ lo

/-- The byte at the lower address of a word stored big-endian. -/
def highByte (w : Word) : Byte := w.extractLsb' 8 8

/-- The byte at the higher address. -/
def lowByte (w : Word) : Byte := w.extractLsb' 0 8

/-- Decoding the front of a list of bytes: the instruction and the bytes after its two. -/
def decodeBytes : List Byte → Except DecodeReject (Instr × List Byte)
  | hi :: lo :: rest =>
    match decode (wordOfBytes hi lo) with
    | .ok i => .ok (i, rest)
    | .error e => .error e
  | [_] => .error .truncated
  | [] => .error .truncated

/-! ## The encoder (R56) -/

/-- A register or count as its 4-bit field. -/
def nibble (x : Fin 16) : BitVec 4 := BitVec.ofFin x

/-- Format `NNN`: `a` in bits 15..12, `nnn` below. -/
def formatNNN (a : BitVec 4) (nnn : Addr12) : Word := a ++ nnn

/-- Format `XNN`. -/
def formatXNN (a : BitVec 4) (x : Reg) (nn : Byte) : Word := a ++ nibble x ++ nn

/-- Formats `XY` (with `d` fixed) and `XYN` (with `d` the count). -/
def formatXYD (a : BitVec 4) (x y : Reg) (d : BitVec 4) : Word := a ++ nibble x ++ nibble y ++ d

/-- The word of an instruction. -/
def encode : Instr → Word
  | .cls => 0x00E0#16
  | .ret => 0x00EE#16
  | .sys nnn => formatNNN 0x0#4 nnn
  | .jp nnn => formatNNN 0x1#4 nnn
  | .call nnn => formatNNN 0x2#4 nnn
  | .seImm x nn => formatXNN 0x3#4 x nn
  | .sneImm x nn => formatXNN 0x4#4 x nn
  | .seReg x y => formatXYD 0x5#4 x y 0x0#4
  | .ldImm x nn => formatXNN 0x6#4 x nn
  | .addImm x nn => formatXNN 0x7#4 x nn
  | .ldReg x y => formatXYD 0x8#4 x y 0x0#4
  | .orReg x y => formatXYD 0x8#4 x y 0x1#4
  | .andReg x y => formatXYD 0x8#4 x y 0x2#4
  | .xorReg x y => formatXYD 0x8#4 x y 0x3#4
  | .addReg x y => formatXYD 0x8#4 x y 0x4#4
  | .subReg x y => formatXYD 0x8#4 x y 0x5#4
  | .shrReg x y => formatXYD 0x8#4 x y 0x6#4
  | .subnReg x y => formatXYD 0x8#4 x y 0x7#4
  | .shlReg x y => formatXYD 0x8#4 x y 0xE#4
  | .sneReg x y => formatXYD 0x9#4 x y 0x0#4
  | .ldI nnn => formatNNN 0xA#4 nnn
  | .jpV0 nnn => formatNNN 0xB#4 nnn
  | .rnd x nn => formatXNN 0xC#4 x nn
  | .drw x y n => formatXYD 0xD#4 x y (nibble n)
  | .skp x => formatXNN 0xE#4 x 0x9E#8
  | .sknp x => formatXNN 0xE#4 x 0xA1#8
  | .ldVxDT x => formatXNN 0xF#4 x 0x07#8
  | .ldVxK x => formatXNN 0xF#4 x 0x0A#8
  | .ldDTVx x => formatXNN 0xF#4 x 0x15#8
  | .ldSTVx x => formatXNN 0xF#4 x 0x18#8
  | .addIVx x => formatXNN 0xF#4 x 0x1E#8
  | .ldFVx x => formatXNN 0xF#4 x 0x29#8
  | .ldBVx x => formatXNN 0xF#4 x 0x33#8
  | .storeRegs x => formatXNN 0xF#4 x 0x55#8
  | .loadRegs x => formatXNN 0xF#4 x 0x65#8

/-- The instruction as the two bytes that store it, the first at the lower address. -/
def encodeBytes (i : Instr) : List Byte := [highByte (encode i), lowByte (encode i)]

/-! ## The host's door -/

/-- What the decoder reads from the word whose table bits are `w`: the core's word is the table's own 16-bit word,
laid out as its two bytes, high byte first. Bits at and above `nbits` are zero. -/
def decodeTableWord (nbits w : Nat) : Option Instr :=
  let word : Word := BitVec.ofNat 16 (w % 2 ^ nbits)
  match decodeBytes [highByte word, lowByte word] with
  | .ok (i, _) => some i
  | .error _ => none

end Sys2Proof
end

