-- ==== Sys2Proof/Config.lean ====
section
/-! DEFINITION. The parameters a model of the core takes (00_scope R8), as plain data the machine carries (log 2), and
the free value of the model: the random draw (40_cycle R72). The spec's values stand in Machine/Parameters.lean. -/

namespace Sys2Proof

/-- `ADDR_POLICY`: what a memory address at or above 4096 does (20_memory R39, D6). -/
inductive AddrPolicy where
  | fault
  | wrap
deriving DecidableEq, Repr

/-- `KEY_INDEX_POLICY`: what a key number at or above 16 does (45_keys_timers R104, D7). -/
inductive KeyIndexPolicy where
  | fault
  | lowNibble
deriving DecidableEq, Repr

/-- `FX29_SOURCE`: whether `Fx29` takes the field `x` or the register `V[x]` (43_index_memory R98, D10). -/
inductive Fx29Source where
  | nibble
  | register
deriving DecidableEq, Repr

/-- The parameters of rule R8 that are fixed for one machine. -/
structure Config where
  addrPolicy     : AddrPolicy
  keyIndexPolicy : KeyIndexPolicy
  fx29Source     : Fx29Source
  font           : Vector Byte 80
deriving DecidableEq, Repr

/-- FREE VALUE (log 7). The `k`-th random draw. Rule R72: "a free input under no law"; it has no body, so
whatever is proved holds for every sequence of draws. -/
opaque Config.draw : Nat → Byte

end Sys2Proof
end

