-- ==== Sys2Proof/Machine/Parameters.lean ====
section
/-! DEFINITION. The values this spec chooses for the parameters of 00_scope R8. -/

namespace Sys2Proof.Machine

/-- Glyphs 0 to 7 of the table of 10_state R31. PRESUMED (log 3): the bytes are general knowledge, as the spec says. -/
def fontGlyphs0to7 : List Byte :=
  [0xF0, 0x90, 0x90, 0x90, 0xF0] ++ [0x20, 0x60, 0x20, 0x20, 0x70] ++
  [0xF0, 0x10, 0xF0, 0x80, 0xF0] ++ [0xF0, 0x10, 0xF0, 0x10, 0xF0] ++
  [0x90, 0x90, 0xF0, 0x10, 0x10] ++ [0xF0, 0x80, 0xF0, 0x10, 0xF0] ++
  [0xF0, 0x80, 0xF0, 0x90, 0xF0] ++ [0xF0, 0x10, 0x20, 0x40, 0x40]

/-- Glyphs 8 to F of the table of 10_state R31. PRESUMED (log 3). -/
def fontGlyphs8toF : List Byte :=
  [0xF0, 0x90, 0xF0, 0x90, 0xF0] ++ [0xF0, 0x90, 0xF0, 0x10, 0xF0] ++
  [0xF0, 0x90, 0xF0, 0x90, 0x90] ++ [0xE0, 0x90, 0xE0, 0x90, 0xE0] ++
  [0xF0, 0x80, 0x80, 0x80, 0xF0] ++ [0xE0, 0x90, 0x90, 0x90, 0xE0] ++
  [0xF0, 0x80, 0xF0, 0x80, 0xF0] ++ [0xF0, 0x80, 0xF0, 0x80, 0x80]

/-- `FONT`: glyph `d` at bytes `5d .. 5d+4` (10_state R31). -/
def specFont : Vector Byte 80 := ⟨⟨fontGlyphs0to7 ++ fontGlyphs8toF⟩, by decide⟩

/-- The spec's value of `ADDR_POLICY` (D6; log 4). -/
def specAddrPolicy : AddrPolicy := .fault

/-- The spec's value of `KEY_INDEX_POLICY` (D7; log 5). -/
def specKeyIndexPolicy : KeyIndexPolicy := .fault

/-- The spec's value of `FX29_SOURCE` (D10; log 6). -/
def specFx29Source : Fx29Source := .nibble

/-- The parameters of the crusty-8 this spec describes. -/
def specConfig : Config := ⟨specAddrPolicy, specKeyIndexPolicy, specFx29Source, specFont⟩

end Sys2Proof.Machine
end

