-- ==== Sys2Proof/Machine/State.lean ====
section
/-! DEFINITION. The machine state (10_state R17), its fault latch, the reasons a step can stop, and the state after reset. -/

namespace Sys2Proof.Machine

/-- `MEM` as its listed bytes: addresses strictly rising, none equal to what an unlisted address reads as (log 11). -/
abbrev Memory := List Host.Cell

/-- `DISP[col][row]`, 64 columns of 32 cells; `true` is lit (10_state R28). -/
abbrev Display := Vector (Vector Bool 32) 64

/-- The fault kinds of 60_exceptions R110, each with the info it records. -/
inductive FaultKind where
  /-- Code 1: a `0nnn` word other than `00E0` and `00EE` (R75). -/
  | unsupportedInstruction
  /-- Code 2: `2nnn` with the stack full; the info is `SP` (R77). -/
  | stackOverflow (sp : Nat)
  /-- Code 3: `00EE` with the stack empty; the info is `SP` (R74). -/
  | stackUnderflow (sp : Nat)
  /-- Code 4: an address at or above 4096 under `ADDR_POLICY = Fault`; the info is that address (R39). -/
  | memoryOutOfRange (address : Nat)
  /-- Code 5: a key number at or above 16 under `KEY_INDEX_POLICY = Fault`; the info is `V[x]` (R104, R105). -/
  | keyIndexOutOfRange (value : Byte)
deriving DecidableEq, Repr

/-- What `FAULT` records (10_state R34): the kind, the instruction word (none for a fault at fetch) and `pc` at the
start of the faulting step. -/
structure FaultRecord where
  kind    : FaultKind
  opcode  : Option Word
  address : Word
deriving DecidableEq, Repr

/-- The machine state: the fields of 10_state R17 under their names, then the model's own two. -/
structure State where
  /-- The program counter (R21). -/
  pc    : Word
  /-- The index register (R24). -/
  I     : Word
  /-- The general registers V0..VF (R18). -/
  V     : Vector Byte 16
  /-- The 4096 bytes of memory (R30). -/
  MEM   : Memory
  /-- The call stack's 16 slots (R25). -/
  STACK : Vector Word 16
  /-- The stack pointer, 0..16 (R25). -/
  SP    : Fin 17
  /-- The delay timer (R26). -/
  DT    : Byte
  /-- The sound timer (R27). -/
  ST    : Byte
  /-- The display buffer (R28). -/
  DISP  : Display
  /-- The key array, `true` is pressed (R29). -/
  KEY   : Vector Bool 16
  /-- The fault latch (R34). -/
  FAULT : Option FaultRecord
  /-- The machine's parameters (00_scope R8); nothing ever writes them (log 2). -/
  cfg   : Config
  /-- MODEL'S OWN (log 7): how many random draws were taken; the next one is `Config.draw draws`. -/
  draws : Nat
deriving DecidableEq, Repr

/-- Why a step answers no next state. -/
inductive Fault where
  /-- Raised by the step of a core whose fault latch is set: "no step is enabled" until reset (R34, R64, R114). It
  carries the latched record, which is how the fault surfaces to the host. Safe: the model stops where the core has
  no step (log 1). -/
  | halted (record : FaultRecord)
deriving DecidableEq, Repr

/-- Why an instruction has no meaning in the model. -/
inductive Refusal where
  /-- Raised by an arm of `exec` whose instruction has no meaning yet; no arm of this model does. Safe. -/
  | notModelled (mnemonic : String)
deriving DecidableEq, Repr

/-- What a step or a meaning answers. -/
abbrev StepOutcome := Host.Outcome State Fault Refusal

/-- The machine with parameters `c` right after `Reset` (70_reset R125, 10_state section 9). Nothing is listed in memory:
an unlisted address reads as its reset contents. -/
def State.resetWith (c : Config) : State where
  pc    := 0x200#16
  I     := 0#16
  V     := Vector.replicate 16 0#8
  MEM   := []
  STACK := Vector.replicate 16 0#16
  SP    := 0
  DT    := 0#8
  ST    := 0#8
  DISP  := Vector.replicate 64 (Vector.replicate 32 false)
  KEY   := Vector.replicate 16 false
  FAULT := none
  cfg   := c
  draws := 0

/-- The machine of this spec right after reset. -/
def State.reset : State := State.resetWith specConfig

end Sys2Proof.Machine
end

