-- ==== Sys2Proof/Machine/Operands.lean ====
section
/-! DEFINITION. Operand forms: register access, zero extension, the ALU's results, the key number, the glyph number and
the decimal digits. Values are computed exactly as naturals and narrowed, or bit by bit. -/

namespace Sys2Proof.Machine

/-- `V[x]` (10_state R18). -/
def State.getV (s : State) (x : Reg) : Byte := s.V[x.val]

/-- `V[x] <- b`. All sixteen registers are writable, none is hardwired (R18). -/
def State.setV (s : State) (x : Reg) (b : Byte) : State := { s with V := s.V.set x.val b }

/-- `zext_16(nnn)` (30_encoding R57). -/
def zextAddr (nnn : Addr12) : Word := nnn.setWidth 16

/-- `zext_16(V[x])`. -/
def zextByte (b : Byte) : Word := b.setWidth 16

/-! ## ALU results (42_alu R95: unsigned, modulo 256, shifts by one bit) -/

/-- `(a + b) mod 256`. -/
def addResult (a b : Byte) : Byte := BitVec.ofNat 8 (a.toNat + b.toNat)

/-- `(a - b) mod 256`. -/
def subResult (a b : Byte) : Byte := a - b

/-- `a >> 1`. -/
def shrResult (a : Byte) : Byte := a >>> 1

/-- `(a << 1) mod 256`. -/
def shlResult (a : Byte) : Byte := a <<< 1

/-- `rnd & nn` (R94). -/
def rndResult (draw nn : Byte) : Byte := draw &&& nn

/-! ## Block operands -/

/-- `V[0], …, V[n-1]` (43_index_memory R100). -/
def State.regsBelow (s : State) (n : Nat) : List Byte := s.V.toList.take n

/-- `V[k], V[k+1], … <- bs`, ascending (R101). -/
def State.setRegsFrom : Nat → List Byte → State → State
  | _, [], s => s
  | k, b :: bs, s => State.setRegsFrom (k + 1) bs { s with V := s.V.setIfInBounds k b }

/-- Hundreds, tens and ones of `v` (R99). -/
def decimalDigits (v : Byte) : List Byte :=
  [BitVec.ofNat 8 (v.toNat / 100), BitVec.ofNat 8 (v.toNat / 10 % 10), BitVec.ofNat 8 (v.toNat % 10)]

/-- The glyph number of `Fx29` (R98): the field `x`, or the register's value. -/
def glyphNumber (src : Fx29Source) (x : Reg) (v : Byte) : Nat :=
  match src with
  | .nibble => x.val
  | .register => v.toNat

/-- The index-register value for a glyph: `5 * glyph` (R98). -/
def glyphAddress (g : Nat) : Word := BitVec.ofNat 16 (5 * g)

/-! ## Keys (45_keys_timers) -/

/-- The key number of `Ex9E` and `ExA1` (R104, R105). -/
def keyNumber (p : KeyIndexPolicy) (v : Byte) : Except FaultKind (Fin 16) :=
  if h : v.toNat < 16 then .ok ⟨v.toNat, h⟩
  else match p with
    | .fault => .error (.keyIndexOutOfRange v)
    | .lowNibble => .ok (v.extractLsb' 0 4).toFin

/-- `KEY[k]`. -/
def State.keyDown (s : State) (k : Fin 16) : Bool := s.KEY[k.val]

/-- `min { k | KEY[k] = 1 }`, if any key is pressed (R107; log 15). -/
def State.lowestKey (s : State) : Option (Fin 16) := (List.finRange 16).find? (fun k => s.keyDown k)

end Sys2Proof.Machine
end

