-- ==== Sys2Proof/Machine/Flags.lean ====
section
/-! DEFINITION. The flag values written to VF (10_state R19) and the write of a result with its flag. -/

namespace Sys2Proof.Machine

/-- VF, the flag register: `V[0xF]`. -/
def VF : Reg := 15

/-- A condition as the byte 1 or 0. -/
def flagByte (b : Bool) : Byte := if b then 1#8 else 0#8

/-- Carry out of bit 7 (R89). -/
def carryFlag (a b : Byte) : Byte := flagByte (decide (255 < a.toNat + b.toNat))

/-- 1 when `a - b` does not borrow, that is when `a >= b` unsigned (R90, R92; log 13). -/
def notBorrowFlag (a b : Byte) : Byte := flagByte (decide (b.toNat ≤ a.toNat))

/-- Bit 0 of the old `V[x]` (R91; log 19). -/
def lowBitFlag (vx : Byte) : Byte := flagByte (vx.getLsbD 0)

/-- Bit 7 of the old `V[x]` (R93; log 19). -/
def highBitFlag (vx : Byte) : Byte := flagByte (vx.getLsbD 7)

/-- Collision (R103). -/
def collisionFlag (hit : Bool) : Byte := flagByte hit

/-- The result to `V[x]`, then the flag to VF: VF is written last, so it holds the flag when `x = F` (00_scope R13; log 12). -/
def State.setVWithFlag (s : State) (x : Reg) (result flag : Byte) : State := (s.setV x result).setV VF flag

end Sys2Proof.Machine
end

