-- ==== Sys2Proof/Machine/Memory.lean ====
section
/-! DEFINITION. Memory as bytes (20_memory.md): what an unlisted address reads as, reading and writing one byte, the
canonical form, and the address translator. -/

namespace Sys2Proof.Machine

/-- `MEM` has the indices 0..4095 (R37). -/
def memSize : Nat := 4096

/-- What an address holds right after reset, and what an unlisted address reads as: the font at 0x000..0x04F, zero
elsewhere (10_state section 9, R125; log 11). -/
def resetByte (font : Vector Byte 80) (a : Nat) : Byte := if h : a < 80 then font[a] else 0#8

/-- Reading one byte. -/
def Memory.read (font : Vector Byte 80) : Memory → Nat → Byte
  | [], a => resetByte font a
  | (k, v) :: m, a => if a = k then v else Memory.read font m a

/-- Putting the byte `b` at `a` in front of `m`, unless `a` reads as `b` unlisted. -/
def Memory.consUnlessReset (font : Vector Byte 80) (a : Nat) (b : Byte) (m : Memory) : Memory :=
  if b = resetByte font a then m else (a, b) :: m

/-- Writing one byte, keeping the canonical form. -/
def Memory.write (font : Vector Byte 80) : Memory → Nat → Byte → Memory
  | [], a, b => Memory.consUnlessReset font a b []
  | (k, v) :: m, a, b =>
    if a < k then Memory.consUnlessReset font a b ((k, v) :: m)
    else if a = k then Memory.consUnlessReset font a b m
    else (k, v) :: Memory.write font m a b

/-- The canonical form above a bound: addresses strictly rising from at least `lo`, all below 4096, and no entry equal
to what its address reads as unlisted. -/
def Memory.wfFrom (font : Vector Byte 80) : Nat → Memory → Bool
  | _, [] => true
  | lo, (k, v) :: m =>
    decide (lo ≤ k) && decide (k < memSize) && v != resetByte font k && Memory.wfFrom font (k + 1) m

/-- The canonical form of memory. -/
def Memory.wf (font : Vector Byte 80) (m : Memory) : Bool := Memory.wfFrom font 0 m

/-- `Translate(a)` (R39). The address is a natural number, not reduced modulo 2^16. -/
def translateAddr (p : AddrPolicy) (a : Nat) : Except FaultKind Nat :=
  if a < memSize then .ok a
  else match p with
    | .fault => .error (.memoryOutOfRange a)
    | .wrap => .ok (a % memSize)

/-- Translating the `n` addresses `a, a+1, …` in ascending order: all their indices, or the fault of the lowest one that
fails (R40, R112). -/
def translateBlock (p : AddrPolicy) : Nat → Nat → Except FaultKind (List Nat)
  | _, 0 => .ok []
  | a, n + 1 =>
    match translateAddr p a with
    | .error k => .error k
    | .ok i =>
      match translateBlock p (a + 1) n with
      | .error k => .error k
      | .ok is => .ok (i :: is)

/-- The byte at memory index `i`. -/
def State.peek (s : State) (i : Nat) : Byte := Memory.read s.cfg.font s.MEM i

/-- Storing the byte `b` at memory index `i`. No address is protected (R41). -/
def State.poke (s : State) (i : Nat) (b : Byte) : State := { s with MEM := Memory.write s.cfg.font s.MEM i b }

/-- Storing bytes at indices, in order (R44). -/
def State.pokeAll : List Nat → List Byte → State → State
  | i :: is, b :: bs, s => State.pokeAll is bs (s.poke i b)
  | [], _, s => s
  | _ :: _, [], s => s

/-- `MemRead(a, 1)` (00_scope R11). -/
def State.memRead (s : State) (a : Nat) : Except FaultKind Byte :=
  match translateAddr s.cfg.addrPolicy a with
  | .ok i => .ok (s.peek i)
  | .error k => .error k

end Sys2Proof.Machine
end

