-- ==== Sys2Proof/Machine/Ops.lean ====
section
/-! DEFINITION. The operations every meaning shares: what precedes the execute phase, how a step ends, taking a fault,
skipping, the call stack, and addressing through `I`. -/

namespace Sys2Proof.Machine

/-! ## Before the execute phase (40_cycle R66, R67, R72) -/

/-- A timer counts down by one while nonzero and stays at zero (R67). -/
def countDown (t : Byte) : Byte := if t = 0#8 then 0#8 else t - 1#8

/-- The pre-advance, the timers, and the taking of this step's draw: the state the execute phase runs on. -/
def State.preExecute (s : State) : State :=
  { s with pc := s.pc + 2#16, DT := countDown s.DT, ST := countDown s.ST, draws := s.draws + 1 }

/-- This step's random draw (R72; log 7). -/
def State.draw (s : State) : Byte := Config.draw s.draws

/-! ## Taking a fault (60_exceptions R113) and the end of a step (R70) -/

/-- The numeric code of a fault kind (R110). -/
def FaultKind.code : FaultKind → Nat
  | .unsupportedInstruction => 1
  | .stackOverflow _ => 2
  | .stackUnderflow _ => 3
  | .memoryOutOfRange _ => 4
  | .keyIndexOutOfRange _ => 5

/-- TAKING A FAULT, from the state `s` at the start of the step: only `FAULT` changes (R113). Control goes nowhere; the
core is then halted. There is no return from a fault (R115): only the host's Reset clears the latch. -/
def State.latchFault (s : State) (k : FaultKind) (op : Option Word) : State :=
  { s with FAULT := some ⟨k, op, s.pc⟩ }

/-- The rest of the step of the instruction `i` fetched in state `s`: its execute phase runs on `s.preExecute`; if it
completes its state is the next one (R70), if it raises the fault is taken from `s` (R113). -/
def runPhase (s : State) (i : Instr) (phase : State → Except FaultKind State) : StepOutcome :=
  match phase s.preExecute with
  | .ok t => .next t
  | .error k => .next (s.latchFault k (some (encode i)))

/-- The rest of the step of an instruction that raises nothing. -/
def complete (s : State) (effect : State → State) : StepOutcome := .next (effect s.preExecute)

/-- The fallback no-op of an unrecognized word: an empty execute phase (R69). -/
def execNoOp (s : State) : StepOutcome := complete s id

/-! ## Control flow -/

/-- `pc <- a`. -/
def State.setPc (s : State) (a : Word) : State := { s with pc := a }

/-- A skip: `pc <- (pc + 2) mod 2^16` on the already-advanced counter, when the condition holds (R78). -/
def State.skipIf (s : State) (c : Bool) : State := if c then s.setPc (s.pc + 2#16) else s

/-- Push (R25, R77): `STACK[SP] <- w`, then `SP <- SP + 1`. -/
def State.push (s : State) (w : Word) : Except FaultKind State :=
  if h : s.SP.val < 16 then
    .ok { s with STACK := s.STACK.set s.SP.val w, SP := ⟨s.SP.val + 1, by omega⟩ }
  else .error (.stackOverflow s.SP.val)

/-- Pop into `pc` (R25, R74): `SP <- SP - 1`, then `pc <- STACK[SP]`. The slot keeps its value (log 21). -/
def State.popPc (s : State) : Except FaultKind State :=
  if h : 0 < s.SP.val then
    .ok { s with SP := ⟨s.SP.val - 1, by omega⟩, pc := s.STACK[s.SP.val - 1]'(by omega) }
  else .error (.stackUnderflow s.SP.val)

/-! ## Through the index register -/

/-- `I <- a`. -/
def State.setI (s : State) (a : Word) : State := { s with I := a }

/-- The memory indices of the `n` bytes at `I` (R39, R40): the addresses are the naturals `I + k`. -/
def State.indexBlock (s : State) (n : Nat) : Except FaultKind (List Nat) :=
  translateBlock s.cfg.addrPolicy s.I.toNat n

/-- Running `f` on the translated indices, or raising the translation's fault. -/
def State.withBlock (s : State) (n : Nat) (f : List Nat → State) : Except FaultKind State :=
  match s.indexBlock n with
  | .ok is => .ok (f is)
  | .error k => .error k

end Sys2Proof.Machine
end

