-- ==== Sys2Proof/Machine/Alu.lean ====
section
/-! DEFINITION. Register and ALU instructions (42_alu.md). None raises a fault. -/

namespace Sys2Proof.Machine

/-- `6xnn` (R83). -/
def execLdImm (x : Reg) (nn : Byte) (s : State) : StepOutcome := complete s fun t => t.setV x nn

/-- `7xnn` (R84): no flag. -/
def execAddImm (x : Reg) (nn : Byte) (s : State) : StepOutcome :=
  complete s fun t => t.setV x (addResult (t.getV x) nn)

/-- `8xy0` (R85). -/
def execLdReg (x y : Reg) (s : State) : StepOutcome := complete s fun t => t.setV x (t.getV y)

/-- `8xy1` (R86): no flag. -/
def execOrReg (x y : Reg) (s : State) : StepOutcome := complete s fun t => t.setV x (t.getV x ||| t.getV y)

/-- `8xy2` (R87): no flag. -/
def execAndReg (x y : Reg) (s : State) : StepOutcome := complete s fun t => t.setV x (t.getV x &&& t.getV y)

/-- `8xy3` (R88): no flag. -/
def execXorReg (x y : Reg) (s : State) : StepOutcome := complete s fun t => t.setV x (t.getV x ^^^ t.getV y)

/-- `8xy4` (R89). -/
def execAddReg (x y : Reg) (s : State) : StepOutcome :=
  complete s fun t => t.setVWithFlag x (addResult (t.getV x) (t.getV y)) (carryFlag (t.getV x) (t.getV y))

/-- `8xy5` (R90). -/
def execSubReg (x y : Reg) (s : State) : StepOutcome :=
  complete s fun t => t.setVWithFlag x (subResult (t.getV x) (t.getV y)) (notBorrowFlag (t.getV x) (t.getV y))

/-- `8xy6` (R91): the result from `V[y]`, the flag from the old `V[x]`. -/
def execShrReg (x y : Reg) (s : State) : StepOutcome :=
  complete s fun t => t.setVWithFlag x (shrResult (t.getV y)) (lowBitFlag (t.getV x))

/-- `8xy7` (R92). -/
def execSubnReg (x y : Reg) (s : State) : StepOutcome :=
  complete s fun t => t.setVWithFlag x (subResult (t.getV y) (t.getV x)) (notBorrowFlag (t.getV y) (t.getV x))

/-- `8xyE` (R93): the result from `V[y]`, the flag from the old `V[x]`. -/
def execShlReg (x y : Reg) (s : State) : StepOutcome :=
  complete s fun t => t.setVWithFlag x (shlResult (t.getV y)) (highBitFlag (t.getV x))

/-- `Cxnn` (R94). -/
def execRnd (x : Reg) (nn : Byte) (s : State) : StepOutcome :=
  complete s fun t => t.setV x (rndResult s.draw nn)

end Sys2Proof.Machine
end

