-- ==== Sys2Proof/Machine/ControlFlow.lean ====
section
/-! DEFINITION. Control transfer and skips (41_control_flow.md). -/

namespace Sys2Proof.Machine

/-- `00EE` (R74). -/
def execRet (s : State) : StepOutcome := runPhase s .ret fun t => t.popPc

/-- `0nnn` other than `00E0` and `00EE` (R75): its effect is to raise `UnsupportedInstruction`. -/
def execSys (nnn : Addr12) (s : State) : StepOutcome :=
  runPhase s (.sys nnn) fun _ => .error .unsupportedInstruction

/-- `1nnn` (R76). -/
def execJp (nnn : Addr12) (s : State) : StepOutcome := complete s fun t => t.setPc (zextAddr nnn)

/-- `2nnn` (R77): the pushed value is the already-advanced counter. -/
def execCall (nnn : Addr12) (s : State) : StepOutcome :=
  runPhase s (.call nnn) fun t =>
    match t.push t.pc with
    | .ok u => .ok (u.setPc (zextAddr nnn))
    | .error k => .error k

/-- `3xnn` (R78). -/
def execSeImm (x : Reg) (nn : Byte) (s : State) : StepOutcome := complete s fun t => t.skipIf (t.getV x == nn)

/-- `4xnn` (R79). -/
def execSneImm (x : Reg) (nn : Byte) (s : State) : StepOutcome := complete s fun t => t.skipIf (t.getV x != nn)

/-- `5xy0` (R80). -/
def execSeReg (x y : Reg) (s : State) : StepOutcome := complete s fun t => t.skipIf (t.getV x == t.getV y)

/-- `9xy0` (R81). -/
def execSneReg (x y : Reg) (s : State) : StepOutcome := complete s fun t => t.skipIf (t.getV x != t.getV y)

/-- `Bnnn` (R82): a 16-bit sum, not reduced to 12 bits (log 16). -/
def execJpV0 (nnn : Addr12) (s : State) : StepOutcome :=
  complete s fun t => t.setPc (zextAddr nnn + zextByte (t.getV 0))

end Sys2Proof.Machine
end

