-- ==== Sys2Proof/Machine/Drawing.lean ====
section
/-! DEFINITION. Display instructions (44_display.md) and the display buffer's operations. -/

namespace Sys2Proof.Machine

/-- `DISP[col][row]`. -/
def Display.lit (d : Display) (col : Fin 64) (row : Fin 32) : Bool := d[col.val][row.val]

/-- `DISP[col][row] <- DISP[col][row] ^ 1`. -/
def Display.toggle (d : Display) (col : Fin 64) (row : Fin 32) : Display :=
  d.set col.val (d[col.val].set row.val (!d.lit col row))

/-- Every cell unlit (R102). -/
def Display.blank : Display := Vector.replicate 64 (Vector.replicate 32 false)

/-- `c mod 64` (R103: coordinates wrap). -/
def wrapCol (c : Nat) : Fin 64 := ⟨c % 64, Nat.mod_lt _ (by decide)⟩

/-- `r mod 32`. -/
def wrapRow (r : Nat) : Fin 32 := ⟨r % 32, Nat.mod_lt _ (by decide)⟩

/-- The cells one sprite byte toggles in row `r`: bit 7 is the leftmost (R103). -/
def spriteRow (px r : Nat) (b : Byte) : List (Fin 64 × Fin 32) :=
  ((List.range 8).filter fun c => b.getLsbD (7 - c)).map fun c => (wrapCol (px + c), wrapRow r)

/-- The cells a sprite toggles, in order, from row `py` on. -/
def spriteCells (px : Nat) : Nat → List Byte → List (Fin 64 × Fin 32)
  | _, [] => []
  | py, b :: bs => spriteRow px py b ++ spriteCells px (py + 1) bs

/-- Toggling cells in order and noting whether one of them was lit (R103). -/
def plot : List (Fin 64 × Fin 32) → Display → Bool → Display × Bool
  | [], d, hit => (d, hit)
  | (col, row) :: cells, d, hit => plot cells (d.toggle col row) (hit || d.lit col row)

/-- The execute phase of `Dxyn` once the sprite's bytes are read: the display, then VF last. -/
def State.drawSprite (s : State) (px py : Nat) (sprite : List Byte) : State :=
  let r := plot (spriteCells px py sprite) s.DISP false
  { s with DISP := r.1 }.setV VF (collisionFlag r.2)

/-- `00E0` (R102). -/
def execCls (s : State) : StepOutcome := complete s fun t => { t with DISP := Display.blank }

/-- `Dxyn` (R103). -/
def execDrw (x y : Reg) (n : Count) (s : State) : StepOutcome :=
  runPhase s (.drw x y n) fun t =>
    t.withBlock n.val fun is => t.drawSprite (t.getV x).toNat (t.getV y).toNat (is.map t.peek)

end Sys2Proof.Machine
end

