-- ==== Sys2Proof/Machine/IndexMemory.lean ====
section
/-! DEFINITION. Index register and memory instructions (43_index_memory.md). -/

namespace Sys2Proof.Machine

/-- `Annn` (R96). -/
def execLdI (nnn : Addr12) (s : State) : StepOutcome := complete s fun t => t.setI (zextAddr nnn)

/-- `Fx1E` (R97): no flag, modulo 2^16 (logs 14, 20). -/
def execAddIVx (x : Reg) (s : State) : StepOutcome := complete s fun t => t.setI (t.I + zextByte (t.getV x))

/-- `Fx29` (R98; log 6). -/
def execLdFVx (x : Reg) (s : State) : StepOutcome :=
  complete s fun t => t.setI (glyphAddress (glyphNumber t.cfg.fx29Source x (t.getV x)))

/-- `Fx33` (R99). -/
def execLdBVx (x : Reg) (s : State) : StepOutcome :=
  runPhase s (.ldBVx x) fun t => t.withBlock 3 fun is => State.pokeAll is (decimalDigits (t.getV x)) t

/-- `I <- (I + x + 1) mod 2^16` (R100, R101). -/
def State.bumpI (s : State) (x : Reg) : State := s.setI (s.I + BitVec.ofNat 16 (x.val + 1))

/-- `Fx55` (R100). -/
def execStoreRegs (x : Reg) (s : State) : StepOutcome :=
  runPhase s (.storeRegs x) fun t =>
    t.withBlock (x.val + 1) fun is => (State.pokeAll is (t.regsBelow (x.val + 1)) t).bumpI x

/-- `Fx65` (R101). -/
def execLoadRegs (x : Reg) (s : State) : StepOutcome :=
  runPhase s (.loadRegs x) fun t =>
    t.withBlock (x.val + 1) fun is => (State.setRegsFrom 0 (is.map t.peek) t).bumpI x

end Sys2Proof.Machine
end

