-- ==== Sys2Proof/Machine/KeysTimers.lean ====
section
/-! DEFINITION. Key and timer instructions (45_keys_timers.md). The timers have already been counted down. -/

namespace Sys2Proof.Machine

/-- The execute phase of `Ex9E` and `ExA1`: skip when the key numbered by `v` is down (`down = true`) or up. -/
def State.skipOnKey (s : State) (v : Byte) (down : Bool) : Except FaultKind State :=
  match keyNumber s.cfg.keyIndexPolicy v with
  | .ok k => .ok (s.skipIf (s.keyDown k == down))
  | .error e => .error e

/-- `Ex9E` (R104). -/
def execSkp (x : Reg) (s : State) : StepOutcome := runPhase s (.skp x) fun t => t.skipOnKey (t.getV x) true

/-- `ExA1` (R105). -/
def execSknp (x : Reg) (s : State) : StepOutcome := runPhase s (.sknp x) fun t => t.skipOnKey (t.getV x) false

/-- `Fx07` (R106). -/
def execLdVxDT (x : Reg) (s : State) : StepOutcome := complete s fun t => t.setV x t.DT

/-- `Fx0A` (R107): the lowest pressed key, or back to this instruction. -/
def execLdVxK (x : Reg) (s : State) : StepOutcome :=
  complete s fun t =>
    match t.lowestKey with
    | some k => t.setV x (BitVec.ofNat 8 k.val)
    | none => t.setPc (t.pc - 2#16)

/-- `Fx15` (R108). -/
def execLdDTVx (x : Reg) (s : State) : StepOutcome := complete s fun t => { t with DT := t.getV x }

/-- `Fx18` (R109). -/
def execLdSTVx (x : Reg) (s : State) : StepOutcome := complete s fun t => { t with ST := t.getV x }

end Sys2Proof.Machine
end

