-- ==== Sys2Proof/Machine/Fetch.lean ====
section
/-! DEFINITION. Instruction fetch (40_cycle R65, 20_memory R42), and placing a word where the next fetch reads it. -/

namespace Sys2Proof.Machine

/-- `MemRead(a, 2)`: the bytes at `a` and `a + 1`, big-endian; the first translation that fails is the fault (R112). -/
def State.memRead2 (s : State) (a : Nat) : Except FaultKind Word :=
  match s.memRead a with
  | .error k => .error k
  | .ok hi =>
    match s.memRead (a + 1) with
    | .error k => .error k
    | .ok lo => .ok (wordOfBytes hi lo)

/-- The instruction word at `pc`. -/
def State.fetch (s : State) : Except FaultKind Word := s.memRead2 s.pc.toNat

/-- Where programs are loaded and reset enters (00_scope R7). -/
def programBase : Nat := 0x200

/-- The state ready for a fetch (log 10): the latch clear, and `pc` at a fetchable address (its own if it is one, else
the reset entry point). -/
def State.fetchable (s : State) : State :=
  match translateBlock s.cfg.addrPolicy s.pc.toNat 2 with
  | .ok _ => { s with FAULT := none }
  | .error _ => { s with FAULT := none, pc := BitVec.ofNat 16 programBase }

/-- Storing the word `w`, high byte first, at the two indices the fetch reads. -/
def State.placeWord (s : State) (w : Word) : State :=
  match translateBlock s.fetchable.cfg.addrPolicy s.fetchable.pc.toNat 2 with
  | .ok is => State.pokeAll is [highByte w, lowByte w] s.fetchable
  | .error _ => s.fetchable

end Sys2Proof.Machine
end

