-- ==== Sys2Proof/Machine/Engine.lean ====
section
/-! DEFINITION. The engine (40_cycle R64 to R71): the halted check, fetch, decode, dispatch. -/

namespace Sys2Proof.Machine

/-- Running the word `w` fetched in state `s`: its instruction, or the fallback no-op (R68, R69). -/
def runWord (w : Word) (s : State) : StepOutcome :=
  match decode w with
  | .ok i => exec i s
  | .error _ => execNoOp s

/-- One enabled step: fetch, then run the word. A fetch that faults has no opcode (R65). -/
def runFetched (s : State) : StepOutcome :=
  match s.fetch with
  | .ok w => runWord w s
  | .error k => .next (s.latchFault k none)

/-- One step (R71). A halted core has none (R64, R114). -/
def engineStep (s : State) : StepOutcome :=
  match s.FAULT with
  | some r => .fault (.halted r)
  | none => runFetched s

end Sys2Proof.Machine
end

