-- ==== Sys2Proof/Machine/Step.lean ====
section
/-! DEFINITION. The machine's step and the host's door to place one instruction. -/

namespace Sys2Proof.Machine

/-- One step of the core (40_cycle R71). -/
def step (s : State) : Host.Outcome State Fault Refusal := engineStep s

/-- `s` with the table word `w` (its bits at and above `nbits` zero) stored where the next step fetches (log 10). -/
def State.withFetchWord (s : State) (nbits w : Nat) : State := s.placeWord (BitVec.ofNat 16 (w % 2 ^ nbits))

end Sys2Proof.Machine
end

