-- ==== Sys2Proof/Machine/HostOps.lean ====
section
/-! DEFINITION. The host's operations between steps (70_reset R129), beside `step`. -/

namespace Sys2Proof.Machine

/-- `Reset()` (R125) of any state: every field at its reset value. The parameters are the machine's own, and the draws
already taken stay taken (log 8). -/
def State.hostReset (s : State) : State := { State.resetWith s.cfg with draws := s.draws }

/-- What `LoadProgram` gives back (R126). -/
inductive LoadResult where
  /-- `Ok`, with the state after the copy. -/
  | ok (s : State)
  /-- `ProgramTooLarge`: nothing is written (R116). -/
  | programTooLarge
deriving DecidableEq, Repr

/-- `LoadProgram(bytes)` (R126): a copy to 0x200 and nothing else. -/
def State.loadProgram (s : State) (bytes : List Byte) : LoadResult :=
  if memSize < bytes.length + programBase then .programTooLarge
  else .ok (State.pokeAll (List.range' programBase bytes.length) bytes s)

/-- `SetKeys(k)` (R130): the whole key array is replaced. -/
def State.setKeys (s : State) (k : Vector Bool 16) : State := { s with KEY := k }

/-- `ReadDisplay()` (R129). -/
def State.readDisplay (s : State) : Display := s.DISP

/-- `ReadTimers()` (R129): `DT` and `ST`. -/
def State.readTimers (s : State) : Byte × Byte := (s.DT, s.ST)

/-- `ReadFault()` (R129). -/
def State.readFault (s : State) : Option FaultRecord := s.FAULT

end Sys2Proof.Machine
end

