-- ==== Sys2Proof/Safety.lean ====
section
/-! DEFINITION. The terms statements use: what a step leaves unchanged, when an instruction raises, where `pc` goes, and
what counts as a good state. They are written from the rules, in natural-number arithmetic, apart from the meanings. -/

namespace Sys2Proof.Machine

/-! ## What is left unchanged -/

/-- Every byte of memory reads as before. -/
def SameMemory (s t : State) : Prop := ∀ a : Nat, t.peek a = s.peek a

/-- Every byte of memory outside the indices `is` reads as before. -/
def SameMemoryOutside (is : List Nat) (s t : State) : Prop := ∀ a : Nat, a ∉ is → t.peek a = s.peek a

/-- Every register outside `xs` keeps its value. -/
def SameRegsBut (xs : List Reg) (s t : State) : Prop := ∀ r : Reg, r ∉ xs → t.getV r = s.getV r

/-- The call stack, all its slots and `SP`, is unchanged. -/
def SameStack (s t : State) : Prop := t.SP = s.SP ∧ t.STACK = s.STACK

/-- Every display cell is unchanged. -/
def SameDisplay (s t : State) : Prop := ∀ (c : Fin 64) (r : Fin 32), t.DISP.lit c r = s.DISP.lit c r

/-- The key array, the fault latch and the parameters are unchanged. -/
def SameControl (s t : State) : Prop := t.KEY = s.KEY ∧ t.FAULT = s.FAULT ∧ t.cfg = s.cfg

/-- Both timers went down by one, or stayed at zero (natural-number subtraction; 40_cycle R67). -/
def Ticked (s t : State) : Prop := t.DT.toNat = s.DT.toNat - 1 ∧ t.ST.toNat = s.ST.toNat - 1

/-- Memory, stack, display, keys, latch and parameters are unchanged: all but `V`, `I`, `pc` and the timers. -/
def KeepsStorage (s t : State) : Prop := SameMemory s t ∧ SameStack s t ∧ SameDisplay s t ∧ SameControl s t

/-- The frame of an instruction that writes only the registers `xs`. -/
def WritesOnlyRegs (xs : List Reg) (s t : State) : Prop :=
  SameRegsBut xs s t ∧ t.I = s.I ∧ Ticked s t ∧ KeepsStorage s t

/-- The frame of an instruction that writes only `pc`. -/
def WritesOnlyPc (s t : State) : Prop := WritesOnlyRegs [] s t

/-- The frame of an instruction that writes only `I`. -/
def WritesOnlyI (s t : State) : Prop := SameRegsBut [] s t ∧ Ticked s t ∧ KeepsStorage s t

/-! ## Words -/

/-- The word `w` decodes to `i`. -/
def DecodesTo (w : Nat) (i : Instr) : Prop := decode (BitVec.ofNat 16 w) = .ok i

/-- The word `w` matches no row, and running it only advances `pc` and counts the timers down (R60, R69). -/
def NoOpWord (s : State) (w : Nat) : Prop :=
  decode (BitVec.ofNat 16 w) = .error (.unrecognized (BitVec.ofNat 16 w)) ∧
  ∃ t, runWord (BitVec.ofNat 16 w) s = .next t ∧ t.pc = s.pc + 2#16 ∧ WritesOnlyPc s t

/-! ## Faults -/

/-- A block of `n` bytes at address `a` leaves memory where `ADDR_POLICY` faults (20_memory R39, R40). -/
def BlockFaults (s : State) (a n : Nat) : Prop := s.cfg.addrPolicy = .fault ∧ 0 < n ∧ 4096 < a + n

/-- When the execute phase of an instruction raises (60_exceptions R110, R111). -/
def Raises (s : State) : Instr → Prop
  | .sys _ => True
  | .call _ => s.SP.val = 16
  | .ret => s.SP.val = 0
  | .drw _ _ n => BlockFaults s s.I.toNat n.val
  | .ldBVx _ => BlockFaults s s.I.toNat 3
  | .storeRegs x | .loadRegs x => BlockFaults s s.I.toNat (x.val + 1)
  | .skp x | .sknp x => s.cfg.keyIndexPolicy = .fault ∧ 16 ≤ (s.getV x).toNat
  | .cls | .jp _ | .jpV0 _ | .seImm _ _ | .sneImm _ _ | .seReg _ _ | .sneReg _ _ => False
  | .ldImm _ _ | .addImm _ _ | .ldReg _ _ | .orReg _ _ | .andReg _ _ | .xorReg _ _ | .addReg _ _ => False
  | .subReg _ _ | .shrReg _ _ | .subnReg _ _ | .shlReg _ _ | .rnd _ _ => False
  | .ldI _ | .addIVx _ | .ldFVx _ | .ldVxDT _ | .ldVxK _ | .ldDTVx _ | .ldSTVx _ => False

/-- The state after taking the fault `k` of the instruction word `w` (none at fetch): only the latch changes (R113). -/
def FaultTaken (s t : State) (k : FaultKind) (w : Option Nat) : Prop :=
  t = { s with FAULT := some ⟨k, w.map (BitVec.ofNat 16), s.pc⟩ }

/-! ## Where `pc` goes (10_state R22) -/

/-- `A + 4` when the condition holds, else `A + 2`. -/
def skipTarget (s : State) (c : Bool) : Nat := (s.pc.toNat + if c then 4 else 2) % 65536

/-- The key `Ex9E` and `ExA1` look at: `V[x]`, its low nibble when it is 16 or more. -/
def keyLooked (s : State) (x : Reg) : Bool := s.keyDown ⟨(s.getV x).toNat % 16, Nat.mod_lt _ (by decide)⟩

/-- Some key is pressed. -/
def anyKey (s : State) : Bool := (List.finRange 16).any fun k => s.keyDown k

/-- The value of `pc` after an instruction that does not raise, by rule R22. -/
def pcAfter (s : State) : Instr → Nat
  | .jp nnn | .call nnn => nnn.toNat
  | .jpV0 nnn => nnn.toNat + (s.getV 0).toNat
  | .ret => if h : 0 < s.SP.val then (s.STACK[s.SP.val - 1]'(by omega)).toNat else s.pc.toNat
  | .sys _ => s.pc.toNat
  | .seImm x nn => skipTarget s (s.getV x == nn)
  | .sneImm x nn => skipTarget s (s.getV x != nn)
  | .seReg x y => skipTarget s (s.getV x == s.getV y)
  | .sneReg x y => skipTarget s (s.getV x != s.getV y)
  | .skp x => skipTarget s (keyLooked s x)
  | .sknp x => skipTarget s (!keyLooked s x)
  | .ldVxK _ => if anyKey s then skipTarget s false else s.pc.toNat
  | .cls | .ldImm _ _ | .addImm _ _ | .ldReg _ _ | .orReg _ _ | .andReg _ _ | .xorReg _ _ => skipTarget s false
  | .addReg _ _ | .subReg _ _ | .shrReg _ _ | .subnReg _ _ | .shlReg _ _ | .rnd _ _ => skipTarget s false
  | .ldI _ | .addIVx _ | .ldFVx _ | .ldBVx _ | .storeRegs _ | .loadRegs _ | .drw _ _ _ => skipTarget s false
  | .ldVxDT _ | .ldDTVx _ | .ldSTVx _ => skipTarget s false

/-! ## Which registers an instruction may write (10_state R19, R33) -/

/-- The general registers an instruction may write. -/
def destRegs : Instr → List Reg
  | .ldImm x _ | .addImm x _ | .ldReg x _ | .orReg x _ | .andReg x _ | .xorReg x _ | .rnd x _ => [x]
  | .ldVxDT x | .ldVxK x => [x]
  | .addReg x _ | .subReg x _ | .shrReg x _ | .subnReg x _ | .shlReg x _ => [x, VF]
  | .drw _ _ _ => [VF]
  | .loadRegs x => (List.finRange 16).filter fun r => r.val ≤ x.val
  | .cls | .ret | .sys _ | .jp _ | .call _ | .jpV0 _ => []
  | .seImm _ _ | .sneImm _ _ | .seReg _ _ | .sneReg _ _ | .skp _ | .sknp _ => []
  | .ldI _ | .addIVx _ | .ldFVx _ | .ldBVx _ | .storeRegs _ | .ldDTVx _ | .ldSTVx _ => []

/-! ## Display -/

/-- Row `k`, bit `7 - j` of the sprite read at the indices `is` lands on the cell `(c, r)` (44_display R103). -/
def SpriteCovers (s : State) (is : List Nat) (px py : Nat) (c : Fin 64) (r : Fin 32) : Prop :=
  ∃ k i j : Nat, is[k]? = some i ∧ j < 8 ∧ (s.peek i).getLsbD (7 - j) = true ∧
    c.val = (px + j) % 64 ∧ r.val = (py + k) % 32

/-! ## Good states -/

/-- Memory is in its canonical form. -/
def MemoryCanonical (s : State) : Prop := Memory.wf s.cfg.font s.MEM = true

/-- The fault latch tells the truth about the state it is in (10_state R34, 60_exceptions R110, R113). -/
def FaultRecordTrue (s : State) (r : FaultRecord) : Prop :=
  r.address = s.pc ∧
  match r.kind with
  | .unsupportedInstruction =>
    ∃ w : Word, r.opcode = some w ∧ w.toNat < 0x1000 ∧ w.toNat ≠ 0x00E0 ∧ w.toNat ≠ 0x00EE
  | .stackOverflow n => n = 16 ∧ s.SP.val = 16 ∧ ∃ w : Word, r.opcode = some w ∧ w.toNat / 0x1000 = 2
  | .stackUnderflow n => n = 0 ∧ s.SP.val = 0 ∧ r.opcode = some 0x00EE#16
  | .memoryOutOfRange a => s.cfg.addrPolicy = .fault ∧ 4096 ≤ a
  | .keyIndexOutOfRange v =>
    s.cfg.keyIndexPolicy = .fault ∧ 16 ≤ v.toNat ∧ ∃ w : Word, r.opcode = some w ∧ w.toNat / 0x1000 = 0xE

/-- Whatever the latch holds is true. -/
def FaultLatchTrue (s : State) : Prop := ∀ r : FaultRecord, s.FAULT = some r → FaultRecordTrue s r

/-- Under `ADDR_POLICY = Fault`, `pc` never exceeds 0x10FE and no stack slot exceeds 0x1000 (92_eei_decisions D29). -/
def PcWithinReach (s : State) : Prop :=
  s.cfg.addrPolicy = .fault → s.pc.toNat ≤ 0x10FE ∧ ∀ k : Fin 16, s.STACK[k.val].toNat ≤ 0x1000

/-! ## What cannot be observed -/

/-- Two states that differ at most in stack slots at and above `SP` (10_state R35 b). -/
def AgreeButStaleSlots (s t : State) : Prop :=
  t = { s with STACK := t.STACK } ∧ ∀ k : Fin 16, k.val < s.SP.val → t.STACK[k.val] = s.STACK[k.val]

/-- Two states that differ at most in the sound timer. -/
def AgreeButSound (s t : State) : Prop := t = { s with ST := t.ST }

/-- Two states that differ at most in how many draws were taken. -/
def AgreeButDraws (s t : State) : Prop := t = { s with draws := t.draws }

end Sys2Proof.Machine
end

