-- ==== Sys2Proof/Certificates/Slice0/Obligations.lean ====
section
/-! DEFINITION. The statements for the provers. Each docstring names the rule or the spec's own decision it formalises. -/

open Sys2Proof Sys2Proof.Machine

/-! ## Encoding -/

/-- 30_encoding sections 2 and 3: no bit of an encoding is dropped. -/
def Obligations.DecodeOfEncodeIsTheInstruction : Prop :=
  ∀ i : Instr, i.wellFormed = true → decode (encode i) = .ok i

/-- 30_encoding sections 2 and 3: a word has at most one meaning, so the opcode a fault records (log 9), which is
computed by `encode`, is the word that was fetched. -/
def Obligations.EncodeOfDecodeIsTheWord : Prop :=
  ∀ (w : Word) (i : Instr), decode w = .ok i → encode i = w ∧ i.wellFormed = true

/-- R59, over every word of every row of the dispatch map: the row's match plus its operand fields, as a number. -/
def Obligations.EveryWordOfEveryRowDecodesToIt : Prop :=
  ∀ (x y n : Fin 16) (nn : Byte) (nnn : Addr12),
    DecodesTo 0x00E0 .cls ∧ DecodesTo 0x00EE .ret ∧
    (nnn.toNat ≠ 0x0E0 → nnn.toNat ≠ 0x0EE → DecodesTo nnn.toNat (.sys nnn)) ∧
    DecodesTo (0x1000 + nnn.toNat) (.jp nnn) ∧
    DecodesTo (0x2000 + nnn.toNat) (.call nnn) ∧
    DecodesTo (0x3000 + 0x100 * x.val + nn.toNat) (.seImm x nn) ∧
    DecodesTo (0x4000 + 0x100 * x.val + nn.toNat) (.sneImm x nn) ∧
    DecodesTo (0x5000 + 0x100 * x.val + 0x10 * y.val) (.seReg x y) ∧
    DecodesTo (0x6000 + 0x100 * x.val + nn.toNat) (.ldImm x nn) ∧
    DecodesTo (0x7000 + 0x100 * x.val + nn.toNat) (.addImm x nn) ∧
    DecodesTo (0x8000 + 0x100 * x.val + 0x10 * y.val) (.ldReg x y) ∧
    DecodesTo (0x8001 + 0x100 * x.val + 0x10 * y.val) (.orReg x y) ∧
    DecodesTo (0x8002 + 0x100 * x.val + 0x10 * y.val) (.andReg x y) ∧
    DecodesTo (0x8003 + 0x100 * x.val + 0x10 * y.val) (.xorReg x y) ∧
    DecodesTo (0x8004 + 0x100 * x.val + 0x10 * y.val) (.addReg x y) ∧
    DecodesTo (0x8005 + 0x100 * x.val + 0x10 * y.val) (.subReg x y) ∧
    DecodesTo (0x8006 + 0x100 * x.val + 0x10 * y.val) (.shrReg x y) ∧
    DecodesTo (0x8007 + 0x100 * x.val + 0x10 * y.val) (.subnReg x y) ∧
    DecodesTo (0x800E + 0x100 * x.val + 0x10 * y.val) (.shlReg x y) ∧
    DecodesTo (0x9000 + 0x100 * x.val + 0x10 * y.val) (.sneReg x y) ∧
    DecodesTo (0xA000 + nnn.toNat) (.ldI nnn) ∧
    DecodesTo (0xB000 + nnn.toNat) (.jpV0 nnn) ∧
    DecodesTo (0xC000 + 0x100 * x.val + nn.toNat) (.rnd x nn) ∧
    DecodesTo (0xD000 + 0x100 * x.val + 0x10 * y.val + n.val) (.drw x y n) ∧
    DecodesTo (0xE09E + 0x100 * x.val) (.skp x) ∧
    DecodesTo (0xE0A1 + 0x100 * x.val) (.sknp x) ∧
    DecodesTo (0xF007 + 0x100 * x.val) (.ldVxDT x) ∧
    DecodesTo (0xF00A + 0x100 * x.val) (.ldVxK x) ∧
    DecodesTo (0xF015 + 0x100 * x.val) (.ldDTVx x) ∧
    DecodesTo (0xF018 + 0x100 * x.val) (.ldSTVx x) ∧
    DecodesTo (0xF01E + 0x100 * x.val) (.addIVx x) ∧
    DecodesTo (0xF029 + 0x100 * x.val) (.ldFVx x) ∧
    DecodesTo (0xF033 + 0x100 * x.val) (.ldBVx x) ∧
    DecodesTo (0xF055 + 0x100 * x.val) (.storeRegs x) ∧
    DecodesTo (0xF065 + 0x100 * x.val) (.loadRegs x)

/-- R60 (the spec marks it as derived): which words match no row. -/
def Obligations.UnrecognizedWordsAreExactlyThese : Prop :=
  ∀ w : Word,
    let a := w.toNat / 0x1000
    let d := w.toNat % 0x10
    let nn := w.toNat % 0x100
    decode w = .error (.unrecognized w) ↔
      (a = 0x5 ∧ d ≠ 0) ∨ (a = 0x8 ∧ d ∈ [0x8, 0x9, 0xA, 0xB, 0xC, 0xD, 0xF]) ∨ (a = 0x9 ∧ d ≠ 0) ∨
      (a = 0xE ∧ nn ∉ [0x9E, 0xA1]) ∨
      (a = 0xF ∧ nn ∉ [0x07, 0x0A, 0x15, 0x18, 0x1E, 0x29, 0x33, 0x55, 0x65])

/-- A few words written out from the spec's formats, the priority of R59 among them. -/
def Obligations.SampleWordsDecodeAsTheSpecSays : Prop :=
  DecodesTo 0x00E0 .cls ∧ DecodesTo 0x00EE .ret ∧ DecodesTo 0x01E0 (.sys 0x1E0#12) ∧ DecodesTo 0x00EF (.sys 0x0EF#12) ∧
  DecodesTo 0x2300 (.call 0x300#12) ∧ DecodesTo 0x6A7F (.ldImm 0xA 0x7F#8) ∧ DecodesTo 0x812E (.shlReg 1 2) ∧
  DecodesTo 0xA2F0 (.ldI 0x2F0#12) ∧ DecodesTo 0xD125 (.drw 1 2 5) ∧ DecodesTo 0xE2A1 (.sknp 2) ∧
  DecodesTo 0xF733 (.ldBVx 7) ∧ decode 0x5121#16 = .error (.unrecognized 0x5121#16) ∧
  decode 0x8008#16 = .error (.unrecognized 0x8008#16)

/-! ## The step -/

/-- 40_cycle (fetch, decode, dispatch) and 20_memory section 3: when the two bytes at `pc`, high byte first, are the
word of an instruction, the step is that instruction's. -/
def Obligations.StepRunsTheDecodedInstruction : Prop :=
  ∀ (s : State) (i : Instr) (a b : Nat) (w : Word),
    s.FAULT = none →
    translateAddr s.cfg.addrPolicy s.pc.toNat = .ok a →
    translateAddr s.cfg.addrPolicy (s.pc.toNat + 1) = .ok b →
    w.toNat = (s.peek a).toNat * 256 + (s.peek b).toNat →
    decode w = .ok i →
    step s = exec i s

/-- R69. -/
def Obligations.UnrecognizedWordOnlyAdvancesPcAndTimers : Prop :=
  ∀ (s : State) (a b : Nat) (w : Word),
    s.FAULT = none →
    translateAddr s.cfg.addrPolicy s.pc.toNat = .ok a →
    translateAddr s.cfg.addrPolicy (s.pc.toNat + 1) = .ok b →
    w.toNat = (s.peek a).toNat * 256 + (s.peek b).toNat →
    decode w = .error (.unrecognized w) →
    ∃ t, step s = .next t ∧ t.pc = s.pc + 2#16 ∧ WritesOnlyPc s t

/-- 40_cycle (a fetch translation that faults raises with no opcode) and decisions D6, D9, D27: the lowest failing
address is reported and nothing but the latch changes. -/
def Obligations.FetchOutsideMemoryFaults : Prop :=
  ∀ s : State, s.FAULT = none → s.cfg.addrPolicy = .fault → 4095 ≤ s.pc.toNat →
    ∃ t, step s = .next t ∧ FaultTaken s t (.memoryOutOfRange (max s.pc.toNat 4096)) none

/-- The enabling condition of a step (decisions D1, D9; log 1): a step answers a next state exactly when the latch is
clear, and a halted core's step stops with the record. -/
def Obligations.StepIsEnabledExactlyWhenNotHalted : Prop :=
  ∀ s : State, ((∃ t, step s = .next t) ↔ s.FAULT = none) ∧
    ∀ r : FaultRecord, s.FAULT = some r → step s = .fault (.halted r)

/-- Fault entry (decision D9; log 1), over every instruction: a step that takes a fault changes the latch and nothing
else, and records where and on which word. -/
def Obligations.FaultingStepChangesOnlyTheLatch : Prop :=
  ∀ (s t : State) (r : FaultRecord), s.FAULT = none → step s = .next t → t.FAULT = some r →
    t = { s with FAULT := some r } ∧ r.address = s.pc ∧
    (r.opcode = none ↔ BlockFaults s s.pc.toNat 2) ∧ ∀ w, r.opcode = some w → s.fetch = .ok w

/-- 60_exceptions section 1 (decisions D6, D7, D9): the conditions under which an instruction raises, and no other. -/
def Obligations.InstructionsRaiseExactlyWhenListed : Prop :=
  ∀ (s t : State) (i : Instr), s.FAULT = none → exec i s = .next t → (t.FAULT ≠ none ↔ Raises s i)

/-- 10_state R22 (the spec marks it as derived): where every instruction leaves `pc`. -/
def Obligations.PcAfterEveryInstruction : Prop :=
  ∀ (s t : State) (i : Instr), s.FAULT = none → exec i s = .next t → t.FAULT = none → t.pc.toNat = pcAfter s i

/-- R67: once in every step, before the execute phase. That a step which takes a fault does not count (`t.FAULT = none`)
is decision D9 (log 1). -/
def Obligations.TimersCountDownOnceBeforeTheExecutePhase : Prop :=
  ∀ s t : State, step s = .next t → t.FAULT = none →
    (∀ w x, s.fetch = .ok w → decode w = .ok (.ldDTVx x) → t.DT = s.getV x) ∧
    (∀ w x, s.fetch = .ok w → decode w = .ok (.ldSTVx x) → t.ST = s.getV x) ∧
    (∀ w x, s.fetch = .ok w → decode w = .ok (.ldVxDT x) → (t.getV x).toNat = s.DT.toNat - 1) ∧
    ((∀ w x, s.fetch = .ok w → decode w ≠ .ok (.ldDTVx x)) → t.DT.toNat = s.DT.toNat - 1) ∧
    ((∀ w x, s.fetch = .ok w → decode w ≠ .ok (.ldSTVx x)) → t.ST.toNat = s.ST.toNat - 1)

/-! ## Registers and ALU -/

/-- R83 and R85. -/
def Obligations.LoadsPutImmediateOrRegisterInVx : Prop :=
  ∀ (s : State) (x y : Reg) (nn : Byte),
    (DecodesTo (0x6000 + 0x100 * x.val + nn.toNat) (.ldImm x nn) ∧
      ∃ t, exec (.ldImm x nn) s = .next t ∧ t.getV x = nn ∧ WritesOnlyRegs [x] s t) ∧
    (DecodesTo (0x8000 + 0x100 * x.val + 0x10 * y.val) (.ldReg x y) ∧
      ∃ t, exec (.ldReg x y) s = .next t ∧ t.getV x = s.getV y ∧ WritesOnlyRegs [x] s t)

/-- R84: no flag, so VF is among the registers left alone unless `x = F`. -/
def Obligations.AddImmediateWrapsAndSetsNoFlag : Prop :=
  ∀ (s : State) (x : Reg) (nn : Byte),
    DecodesTo (0x7000 + 0x100 * x.val + nn.toNat) (.addImm x nn) ∧
    ∃ t, exec (.addImm x nn) s = .next t ∧ (t.getV x).toNat = ((s.getV x).toNat + nn.toNat) % 256 ∧
      WritesOnlyRegs [x] s t

/-- R86, R87, R88, bit by bit: no flag. -/
def Obligations.LogicWorksBitByBitAndSetsNoFlag : Prop :=
  ∀ (s : State) (x y : Reg),
    (DecodesTo (0x8001 + 0x100 * x.val + 0x10 * y.val) (.orReg x y) ∧
      ∃ t, exec (.orReg x y) s = .next t ∧ WritesOnlyRegs [x] s t ∧
        ∀ k, (t.getV x).getLsbD k = ((s.getV x).getLsbD k || (s.getV y).getLsbD k)) ∧
    (DecodesTo (0x8002 + 0x100 * x.val + 0x10 * y.val) (.andReg x y) ∧
      ∃ t, exec (.andReg x y) s = .next t ∧ WritesOnlyRegs [x] s t ∧
        ∀ k, (t.getV x).getLsbD k = ((s.getV x).getLsbD k && (s.getV y).getLsbD k)) ∧
    (DecodesTo (0x8003 + 0x100 * x.val + 0x10 * y.val) (.xorReg x y) ∧
      ∃ t, exec (.xorReg x y) s = .next t ∧ WritesOnlyRegs [x] s t ∧
        ∀ k, (t.getV x).getLsbD k = ((s.getV x).getLsbD k != (s.getV y).getLsbD k))

/-- 8xy4 (42_alu section 1). Operands read first and VF written last are the spec's decisions D2 and D3 (log 12): with
`x = F` VF ends as the carry. -/
def Obligations.AddSetsSumAndThenCarry : Prop :=
  ∀ (s : State) (x y : Reg),
    DecodesTo (0x8004 + 0x100 * x.val + 0x10 * y.val) (.addReg x y) ∧
    ∃ t, exec (.addReg x y) s = .next t ∧ WritesOnlyRegs [x, VF] s t ∧
      (x ≠ VF → (t.getV x).toNat = ((s.getV x).toNat + (s.getV y).toNat) % 256) ∧
      (t.getV VF).toNat = if 255 < (s.getV x).toNat + (s.getV y).toNat then 1 else 0

/-- 8xy5 and 8xy7 (42_alu section 1). Operands first, VF last and no borrow at equal operands are decisions D2, D3, D4
(logs 12, 13). -/
def Obligations.SubtractSetsDifferenceAndThenNotBorrow : Prop :=
  ∀ (s : State) (x y : Reg),
    (DecodesTo (0x8005 + 0x100 * x.val + 0x10 * y.val) (.subReg x y) ∧
      ∃ t, exec (.subReg x y) s = .next t ∧ WritesOnlyRegs [x, VF] s t ∧
        (x ≠ VF → (t.getV x).toNat = ((s.getV x).toNat + 256 - (s.getV y).toNat) % 256) ∧
        (t.getV VF).toNat = if (s.getV x).toNat < (s.getV y).toNat then 0 else 1) ∧
    (DecodesTo (0x8007 + 0x100 * x.val + 0x10 * y.val) (.subnReg x y) ∧
      ∃ t, exec (.subnReg x y) s = .next t ∧ WritesOnlyRegs [x, VF] s t ∧
        (x ≠ VF → (t.getV x).toNat = ((s.getV y).toNat + 256 - (s.getV x).toNat) % 256) ∧
        (t.getV VF).toNat = if (s.getV y).toNat < (s.getV x).toNat then 0 else 1)

/-- 8xy6 and 8xyE (42_alu section 1): the result from `V[y]`, the flag from the old `V[x]` is decision D28 (log 19),
VF last D3 (log 12). -/
def Obligations.ShiftsTakeTheirResultFromVyAndFlagFromVx : Prop :=
  ∀ (s : State) (x y : Reg),
    (DecodesTo (0x8006 + 0x100 * x.val + 0x10 * y.val) (.shrReg x y) ∧
      ∃ t, exec (.shrReg x y) s = .next t ∧ WritesOnlyRegs [x, VF] s t ∧
        (x ≠ VF → (t.getV x).toNat = (s.getV y).toNat / 2) ∧
        (t.getV VF).toNat = (s.getV x).toNat % 2) ∧
    (DecodesTo (0x800E + 0x100 * x.val + 0x10 * y.val) (.shlReg x y) ∧
      ∃ t, exec (.shlReg x y) s = .next t ∧ WritesOnlyRegs [x, VF] s t ∧
        (x ≠ VF → (t.getV x).toNat = (s.getV y).toNat * 2 % 256) ∧
        (t.getV VF).toNat = (s.getV x).toNat / 128)

/-- Cxnn (42_alu section 1), for every sequence of draws (decision D18; log 7): the draw is free, the mask is not. -/
def Obligations.RandomByteIsTheDrawUnderTheMask : Prop :=
  ∀ (s : State) (x : Reg) (nn : Byte),
    DecodesTo (0xC000 + 0x100 * x.val + nn.toNat) (.rnd x nn) ∧
    ∃ t, exec (.rnd x nn) s = .next t ∧ WritesOnlyRegs [x] s t ∧ t.draws = s.draws + 1 ∧
      ∀ k, (t.getV x).getLsbD k = ((Config.draw s.draws).getLsbD k && nn.getLsbD k)

/-! ## Control flow -/

/-- R76. -/
def Obligations.JumpGoesToItsAddress : Prop :=
  ∀ (s : State) (nnn : Addr12), DecodesTo (0x1000 + nnn.toNat) (.jp nnn) ∧
    ∃ t, exec (.jp nnn) s = .next t ∧ t.pc.toNat = nnn.toNat ∧ WritesOnlyPc s t

/-- Bnnn (41_control_flow). The 16-bit sum, not reduced to 12 bits, is decision D11 (log 16). -/
def Obligations.JumpWithOffsetAddsV0 : Prop :=
  ∀ (s : State) (nnn : Addr12), DecodesTo (0xB000 + nnn.toNat) (.jpV0 nnn) ∧
    ∃ t, exec (.jpV0 nnn) s = .next t ∧ t.pc.toNat = nnn.toNat + (s.getV 0).toNat ∧ WritesOnlyPc s t

/-- R78 to R81: net advance 4 when the condition holds, 2 when it does not; the spellings of `5xyd` and `9xyd` with
`d ≠ 0` are unrecognized and no-ops. -/
def Obligations.SkipsAdvanceByFourWhenTheirConditionHolds : Prop :=
  ∀ (s : State) (x y : Reg) (nn : Byte),
    (DecodesTo (0x3000 + 0x100 * x.val + nn.toNat) (.seImm x nn) ∧
      ∃ t, exec (.seImm x nn) s = .next t ∧ WritesOnlyPc s t ∧
        t.pc = s.pc + if s.getV x = nn then 4#16 else 2#16) ∧
    (DecodesTo (0x4000 + 0x100 * x.val + nn.toNat) (.sneImm x nn) ∧
      ∃ t, exec (.sneImm x nn) s = .next t ∧ WritesOnlyPc s t ∧
        t.pc = s.pc + if s.getV x = nn then 2#16 else 4#16) ∧
    (DecodesTo (0x5000 + 0x100 * x.val + 0x10 * y.val) (.seReg x y) ∧
      ∃ t, exec (.seReg x y) s = .next t ∧ WritesOnlyPc s t ∧
        t.pc = s.pc + if s.getV x = s.getV y then 4#16 else 2#16) ∧
    (DecodesTo (0x9000 + 0x100 * x.val + 0x10 * y.val) (.sneReg x y) ∧
      ∃ t, exec (.sneReg x y) s = .next t ∧ WritesOnlyPc s t ∧
        t.pc = s.pc + if s.getV x = s.getV y then 2#16 else 4#16) ∧
    ∀ d : Fin 16, d.val ≠ 0 →
      NoOpWord s (0x5000 + 0x100 * x.val + 0x10 * y.val + d.val) ∧
      NoOpWord s (0x9000 + 0x100 * x.val + 0x10 * y.val + d.val)

/-- 2nnn below capacity (41_control_flow; 10_state section 4). -/
def Obligations.CallPushesTheAdvancedPcAndJumps : Prop :=
  ∀ (s : State) (nnn : Addr12) (h : s.SP.val < 16),
    ∃ t, exec (.call nnn) s = .next t ∧ t.pc.toNat = nnn.toNat ∧ t.SP.val = s.SP.val + 1 ∧
      t.STACK[s.SP.val] = s.pc + 2#16 ∧ (∀ k : Fin 16, k.val ≠ s.SP.val → t.STACK[k.val] = s.STACK[k.val]) ∧
      SameRegsBut [] s t ∧ t.I = s.I ∧ Ticked s t ∧ SameMemory s t ∧ SameDisplay s t ∧ SameControl s t

/-- 00EE with a call to return from (41_control_flow; 10_state section 4). The slot keeps its value: decision D26 (log 21). -/
def Obligations.ReturnPopsIntoPc : Prop :=
  ∀ (s : State) (h : 0 < s.SP.val),
    ∃ t, exec .ret s = .next t ∧ t.pc = s.STACK[s.SP.val - 1]'(by omega) ∧ t.SP.val + 1 = s.SP.val ∧
      t.STACK = s.STACK ∧
      SameRegsBut [] s t ∧ t.I = s.I ∧ Ticked s t ∧ SameMemory s t ∧ SameDisplay s t ∧ SameControl s t

/-- 2nnn at capacity and 00EE on an empty stack take their fault (41_control_flow; fault entry is decision D9, log 1). -/
def Obligations.StackFaultsAtItsEnds : Prop :=
  (∀ (s : State) (nnn : Addr12), s.SP.val = 16 →
    ∃ t, exec (.call nnn) s = .next t ∧ FaultTaken s t (.stackOverflow 16) (some (0x2000 + nnn.toNat))) ∧
  ∀ s : State, s.SP.val = 0 →
    ∃ t, exec .ret s = .next t ∧ FaultTaken s t (.stackUnderflow 0) (some 0x00EE)

/-- 0nnn (41_control_flow): its own effect is to take the fault UnsupportedInstruction (fault entry is decision D9, log 1). -/
def Obligations.SysTakesUnsupportedInstruction : Prop :=
  ∀ (s : State) (nnn : Addr12),
    ∃ t, exec (.sys nnn) s = .next t ∧ FaultTaken s t .unsupportedInstruction (some nnn.toNat)

/-- Source S2 over 2nnn and 00EE: whatever happens in between, as long as `SP` and the pushed slot are as the call
left them, the return resumes right after the call. -/
def Obligations.ReturnResumesAfterTheCall : Prop :=
  ∀ (s t u : State) (nnn : Addr12) (h : s.SP.val < 16),
    exec (.call nnn) s = .next t → u.SP = t.SP → u.STACK[s.SP.val] = t.STACK[s.SP.val] →
    ∃ v, exec .ret u = .next v ∧ v.pc = s.pc + 2#16 ∧ v.SP = s.SP

/-! ## Index register and memory -/

/-- R96. -/
def Obligations.LoadIndexPutsTheAddressInI : Prop :=
  ∀ (s : State) (nnn : Addr12), DecodesTo (0xA000 + nnn.toNat) (.ldI nnn) ∧
    ∃ t, exec (.ldI nnn) s = .next t ∧ t.I.toNat = nnn.toNat ∧ WritesOnlyI s t

/-- Fx1E (43_index_memory). No flag and modulo 2^16 are decisions D5 and D29 (logs 14, 20). -/
def Obligations.AddToIndexWrapsAndSetsNoFlag : Prop :=
  ∀ (s : State) (x : Reg), DecodesTo (0xF01E + 0x100 * x.val) (.addIVx x) ∧
    ∃ t, exec (.addIVx x) s = .next t ∧ t.I.toNat = (s.I.toNat + (s.getV x).toNat) % 65536 ∧ WritesOnlyI s t

/-- Fx29 (43_index_memory) for both values of FX29_SOURCE (decision D10; log 6). -/
def Obligations.PointAtGlyphIsFiveTimesItsNumber : Prop :=
  ∀ (s : State) (x : Reg), DecodesTo (0xF029 + 0x100 * x.val) (.ldFVx x) ∧
    ∃ t, exec (.ldFVx x) s = .next t ∧ WritesOnlyI s t ∧
      (s.cfg.fx29Source = .nibble → t.I.toNat = 5 * x.val) ∧
      (s.cfg.fx29Source = .register → t.I.toNat = 5 * (s.getV x).toNat)

/-- 20_memory section 2 (decisions D6, D9, D27): a block's indices, ascending, or the fault of its lowest address at or
above 4096. -/
def Obligations.BlockTranslationWrapsOrFaultsAtTheLowestAddress : Prop :=
  ∀ (p : AddrPolicy) (a n : Nat),
    translateBlock p a n =
      if p = .fault ∧ 0 < n ∧ 4096 < a + n then .error (.memoryOutOfRange (max a 4096))
      else .ok ((List.range n).map fun k => (a + k) % 4096)

/-- Fx33 (43_index_memory; decisions D6, D9): the digits at the block's indices, nothing else stored, `I` kept. -/
def Obligations.StoreDecimalWritesThreeDigits : Prop :=
  ∀ (s : State) (x : Reg) (i j k : Nat), MemoryCanonical s → s.indexBlock 3 = .ok [i, j, k] →
    ∃ t, exec (.ldBVx x) s = .next t ∧
      (t.peek i).toNat = (s.getV x).toNat / 100 ∧
      (t.peek j).toNat = (s.getV x).toNat / 10 % 10 ∧
      (t.peek k).toNat = (s.getV x).toNat % 10 ∧
      SameMemoryOutside [i, j, k] s t ∧ SameRegsBut [] s t ∧ t.I = s.I ∧ Ticked s t ∧ SameStack s t ∧
      SameDisplay s t ∧ SameControl s t

/-- Fx55 (43_index_memory; decisions D6, D9, D29). -/
def Obligations.StoreRegistersWritesV0ToVxAndAdvancesI : Prop :=
  ∀ (s : State) (x : Reg) (is : List Nat), MemoryCanonical s → s.indexBlock (x.val + 1) = .ok is →
    ∃ t, exec (.storeRegs x) s = .next t ∧
      (∀ (r : Reg) (i : Nat), r.val ≤ x.val → is[r.val]? = some i → t.peek i = s.getV r) ∧
      t.I.toNat = (s.I.toNat + x.val + 1) % 65536 ∧
      SameMemoryOutside is s t ∧ SameRegsBut [] s t ∧ Ticked s t ∧ SameStack s t ∧ SameDisplay s t ∧ SameControl s t

/-- Fx65 (43_index_memory; decisions D6, D9, D29). -/
def Obligations.LoadRegistersReadsV0ToVxAndAdvancesI : Prop :=
  ∀ (s : State) (x : Reg) (is : List Nat), s.indexBlock (x.val + 1) = .ok is →
    ∃ t, exec (.loadRegs x) s = .next t ∧
      (∀ (r : Reg) (i : Nat), r.val ≤ x.val → is[r.val]? = some i → t.getV r = s.peek i) ∧
      (∀ r : Reg, x.val < r.val → t.getV r = s.getV r) ∧
      t.I.toNat = (s.I.toNat + x.val + 1) % 65536 ∧ Ticked s t ∧ KeepsStorage s t

/-- Dxyn, Fx33, Fx55, Fx65 with a block that leaves memory under ADDR_POLICY = Fault (decisions D6, D9, D27): the lowest
failing address, and no partial effect. -/
def Obligations.BlockOutsideMemoryFaultsWithoutEffect : Prop :=
  ∀ s : State,
    (∀ (x y : Reg) (n : Count), BlockFaults s s.I.toNat n.val → ∃ t, exec (.drw x y n) s = .next t ∧
      FaultTaken s t (.memoryOutOfRange (max s.I.toNat 4096)) (some (0xD000 + 0x100 * x.val + 0x10 * y.val + n.val))) ∧
    (∀ x : Reg, BlockFaults s s.I.toNat 3 → ∃ t, exec (.ldBVx x) s = .next t ∧
      FaultTaken s t (.memoryOutOfRange (max s.I.toNat 4096)) (some (0xF033 + 0x100 * x.val))) ∧
    (∀ x : Reg, BlockFaults s s.I.toNat (x.val + 1) → ∃ t, exec (.storeRegs x) s = .next t ∧
      FaultTaken s t (.memoryOutOfRange (max s.I.toNat 4096)) (some (0xF055 + 0x100 * x.val))) ∧
    (∀ x : Reg, BlockFaults s s.I.toNat (x.val + 1) → ∃ t, exec (.loadRegs x) s = .next t ∧
      FaultTaken s t (.memoryOutOfRange (max s.I.toNat 4096)) (some (0xF065 + 0x100 * x.val)))

/-- Source S1, read as 90_conflicts C7 says: Fx65 after Fx55, with `I` set back and memory untouched in between, restores
the registers whatever they were overwritten with. -/
def Obligations.LoadAfterStoreRestoresTheRegisters : Prop :=
  ∀ (s t u : State) (x : Reg) (is : List Nat), MemoryCanonical s → s.indexBlock (x.val + 1) = .ok is →
    exec (.storeRegs x) s = .next t → u.MEM = t.MEM → u.cfg = t.cfg → u.I = s.I →
    ∃ v, exec (.loadRegs x) u = .next v ∧ ∀ r : Reg, r.val ≤ x.val → v.getV r = s.getV r

/-! ## Display -/

/-- R102. -/
def Obligations.ClearDisplayUnlightsEveryCell : Prop :=
  ∀ s : State, DecodesTo 0x00E0 .cls ∧
    ∃ t, exec .cls s = .next t ∧ (∀ (c : Fin 64) (r : Fin 32), t.DISP.lit c r = false) ∧
      SameRegsBut [] s t ∧ t.I = s.I ∧ Ticked s t ∧ SameMemory s t ∧ SameStack s t ∧ SameControl s t

/-- Dxyn (44_display; decisions D2, D3, D6, D9): the covered cells, wrapped in both axes, are inverted, the others kept,
and VF says whether a covered cell was lit. -/
def Obligations.DrawInvertsTheCoveredCellsAndSetsCollision : Prop :=
  ∀ (s : State) (x y : Reg) (n : Count) (is : List Nat), s.indexBlock n.val = .ok is →
    let covered := SpriteCovers s is (s.getV x).toNat (s.getV y).toNat
    ∃ t, exec (.drw x y n) s = .next t ∧
      (∀ (c : Fin 64) (r : Fin 32), covered c r → t.DISP.lit c r = !s.DISP.lit c r) ∧
      (∀ (c : Fin 64) (r : Fin 32), ¬ covered c r → t.DISP.lit c r = s.DISP.lit c r) ∧
      ((∃ (c : Fin 64) (r : Fin 32), covered c r ∧ s.DISP.lit c r = true) → t.getV VF = 1#8) ∧
      ((¬ ∃ (c : Fin 64) (r : Fin 32), covered c r ∧ s.DISP.lit c r = true) → t.getV VF = 0#8) ∧
      SameRegsBut [VF] s t ∧ t.I = s.I ∧ Ticked s t ∧ SameMemory s t ∧ SameStack s t ∧ SameControl s t

/-- Source S6: a second draw of the same sprite at the same place restores the display, and collides when the sprite
has a 1-bit and the display was clear. -/
def Obligations.DrawingTwiceRestoresTheDisplay : Prop :=
  ∀ (s t u : State) (x y : Reg) (n : Count) (is : List Nat),
    s.indexBlock n.val = .ok is → exec (.drw x y n) s = .next t →
    u.I = s.I → u.cfg = s.cfg → u.MEM = s.MEM → u.DISP = t.DISP → u.getV x = s.getV x → u.getV y = s.getV y →
    ∃ v, exec (.drw x y n) u = .next v ∧ SameDisplay s v ∧
      ((∀ (c : Fin 64) (r : Fin 32), s.DISP.lit c r = false) →
        (∃ i ∈ is, s.peek i ≠ 0#8) → v.getV VF = 1#8)

/-! ## Keys and timers -/

/-- Ex9E and ExA1 (45_keys_timers) with a key number they accept: below 16, or any under KEY_INDEX_POLICY = LowNibble
(decisions D7, D21; log 5). -/
def Obligations.KeySkipsFollowTheKeyNumberedByVx : Prop :=
  ∀ (s : State) (x : Reg), ((s.getV x).toNat < 16 ∨ s.cfg.keyIndexPolicy = .lowNibble) →
    (∃ t, exec (.skp x) s = .next t ∧ WritesOnlyPc s t ∧
      t.pc = s.pc + if keyLooked s x = true then 4#16 else 2#16) ∧
    (∃ t, exec (.sknp x) s = .next t ∧ WritesOnlyPc s t ∧
      t.pc = s.pc + if keyLooked s x = true then 2#16 else 4#16)

/-- Ex9E and ExA1 with a key number of 16 or more under KEY_INDEX_POLICY = Fault (decisions D7, D9; log 5). -/
def Obligations.KeySkipsFaultOnKeyNumbersAbove15 : Prop :=
  ∀ (s : State) (x : Reg), 16 ≤ (s.getV x).toNat → s.cfg.keyIndexPolicy = .fault →
    (∃ t, exec (.skp x) s = .next t ∧
      FaultTaken s t (.keyIndexOutOfRange (s.getV x)) (some (0xE09E + 0x100 * x.val))) ∧
    (∃ t, exec (.sknp x) s = .next t ∧
      FaultTaken s t (.keyIndexOutOfRange (s.getV x)) (some (0xE0A1 + 0x100 * x.val)))

/-- Fx0A (45_keys_timers; decision D8, log 15): the lowest pressed key, or the same instruction again. -/
def Obligations.KeyWaitStoresTheLowestKeyOrStays : Prop :=
  ∀ (s : State) (x : Reg), DecodesTo (0xF00A + 0x100 * x.val) (.ldVxK x) ∧
    ∃ t, exec (.ldVxK x) s = .next t ∧
      (∀ k : Fin 16, s.keyDown k = true → (∀ j : Fin 16, j.val < k.val → s.keyDown j = false) →
        (t.getV x).toNat = k.val ∧ t.pc = s.pc + 2#16 ∧ WritesOnlyRegs [x] s t) ∧
      ((∀ k : Fin 16, s.keyDown k = false) → t.pc = s.pc ∧ WritesOnlyPc s t)

/-- Fx07 (45_keys_timers; the spec marks the rule as derived): the value after this step's decrement. -/
def Obligations.ReadDelayTimerReadsTheDecrementedValue : Prop :=
  ∀ (s : State) (x : Reg), DecodesTo (0xF007 + 0x100 * x.val) (.ldVxDT x) ∧
    ∃ t, exec (.ldVxDT x) s = .next t ∧ (t.getV x).toNat = s.DT.toNat - 1 ∧ WritesOnlyRegs [x] s t

/-- R108: the value written is not decremented in its own step. -/
def Obligations.SetDelayTimerWritesVxUndecremented : Prop :=
  ∀ (s : State) (x : Reg), DecodesTo (0xF015 + 0x100 * x.val) (.ldDTVx x) ∧
    ∃ t, exec (.ldDTVx x) s = .next t ∧ t.DT = s.getV x ∧ t.ST.toNat = s.ST.toNat - 1 ∧
      SameRegsBut [] s t ∧ t.I = s.I ∧ KeepsStorage s t

/-- Fx18 (45_keys_timers; decision D19): as Fx15, for the sound timer. -/
def Obligations.SetSoundTimerWritesVxUndecremented : Prop :=
  ∀ (s : State) (x : Reg), DecodesTo (0xF018 + 0x100 * x.val) (.ldSTVx x) ∧
    ∃ t, exec (.ldSTVx x) s = .next t ∧ t.ST = s.getV x ∧ t.DT.toNat = s.DT.toNat - 1 ∧
      SameRegsBut [] s t ∧ t.I = s.I ∧ KeepsStorage s t

/-! ## The whole machine -/

/-- Every step keeps memory in its canonical form (log 11). -/
def Obligations.EveryStepKeepsMemoryCanonical : Prop :=
  ∀ s t : State, MemoryCanonical s → step s = .next t → MemoryCanonical t

/-- Every step keeps the latch true (10_state section 7, 60_exceptions section 1 and section 3; decisions D6, D7, D9). -/
def Obligations.EveryStepKeepsTheFaultLatchTrue : Prop :=
  ∀ s t : State, FaultLatchTrue s → step s = .next t → FaultLatchTrue t

/-- 92_eei_decisions D29: "Under ADDR_POLICY = Fault pc never exceeds 0x10FE", made inductive by a bound on the stack. -/
def Obligations.EveryStepKeepsPcWithinReach : Prop :=
  ∀ s t : State, PcWithinReach s → step s = .next t → PcWithinReach t

/-- The three invariants hold after reset, with any parameters. -/
def Obligations.ResetMeetsTheInvariants : Prop :=
  ∀ c : Config, MemoryCanonical (State.resetWith c) ∧ FaultLatchTrue (State.resetWith c) ∧
    PcWithinReach (State.resetWith c)

/-- Two canonical memories that read the same everywhere are the same data (log 11). -/
def Obligations.CanonicalMemoriesThatReadAlikeAreEqual : Prop :=
  ∀ (font : Vector Byte 80) (m m' : Memory), Memory.wf font m = true → Memory.wf font m' = true →
    (∀ a, Memory.read font m a = Memory.read font m' a) → m = m'

/-- 10_state section 7 (the access table, which the spec marks as derived): which instructions may change what. -/
def Obligations.OnlyTheListedInstructionsWriteEachPart : Prop :=
  ∀ (s t : State) (i : Instr), exec i s = .next t →
    t.KEY = s.KEY ∧ t.cfg = s.cfg ∧
    SameRegsBut (destRegs i) s t ∧
    (SameMemory s t ∨ (∃ x, i = .ldBVx x) ∨ ∃ x, i = .storeRegs x) ∧
    (t.DISP = s.DISP ∨ i = .cls ∨ ∃ x y n, i = .drw x y n) ∧
    (SameStack s t ∨ i = .ret ∨ ∃ nnn, i = .call nnn) ∧
    (t.I = s.I ∨ (∃ nnn, i = .ldI nnn) ∨ (∃ x, i = .addIVx x) ∨ (∃ x, i = .ldFVx x) ∨
      (∃ x, i = .storeRegs x) ∨ ∃ x, i = .loadRegs x)

/-- 10_state section 8: the stale stack slots are observed by no step. -/
def Obligations.StaleStackSlotsAreNeverObserved : Prop :=
  ∀ s s' : State, AgreeButStaleSlots s s' →
    (∀ t, step s = .next t → ∃ t', step s' = .next t' ∧ AgreeButStaleSlots t t') ∧
    ∀ r, step s = .fault r → step s' = .fault r

/-- 10_state section 4 (decision D19): no step reads the sound timer into anything but itself. -/
def Obligations.SoundTimerIsReadByNoInstruction : Prop :=
  ∀ s s' t : State, AgreeButSound s s' → step s = .next t → ∃ t', step s' = .next t' ∧ AgreeButSound t t'

/-- 40_cycle (decision D18; log 7): the draw reaches the state only through Cxnn, and then only its register. -/
def Obligations.OnlyRandomReadsTheDraw : Prop :=
  ∀ s s' t : State, AgreeButDraws s s' → step s = .next t →
    ∃ t', step s' = .next t' ∧
      (AgreeButDraws t t' ∨
        ∃ w x nn, s.fetch = .ok w ∧ decode w = .ok (.rnd x nn) ∧ SameRegsBut [x] t t' ∧
          t' = { t with V := t'.V, draws := t'.draws })

/-! ## The host's operations -/

/-- 70_reset section 1 and 10_state section 9 (decisions D13, D16, D30): what Reset leaves, from any state. The last
clause is the model's choice (log 8). -/
def Obligations.HostResetLeavesTheResetValues : Prop :=
  ∀ s : State,
    (∀ (a : Nat) (h : a < 80), s.hostReset.peek a = s.cfg.font[a]) ∧
    (∀ a : Nat, 80 ≤ a → s.hostReset.peek a = 0#8) ∧
    (∀ r : Reg, s.hostReset.getV r = 0#8) ∧ (∀ k : Fin 16, s.hostReset.STACK[k.val] = 0#16) ∧
    (∀ k : Fin 16, s.hostReset.keyDown k = false) ∧
    (∀ (c : Fin 64) (r : Fin 32), s.hostReset.DISP.lit c r = false) ∧
    s.hostReset.SP = 0 ∧ s.hostReset.I = 0#16 ∧ s.hostReset.DT = 0#8 ∧ s.hostReset.ST = 0#8 ∧
    s.hostReset.pc = 0x200#16 ∧ s.hostReset.FAULT = none ∧ s.hostReset.cfg = s.cfg ∧ s.hostReset.draws = s.draws

/-- 70_reset section 1 (decision D22): load copies the image to 0x200 and does nothing else, or refuses it whole. -/
def Obligations.LoadProgramCopiesTheImageOrRefusesIt : Prop :=
  ∀ (s : State) (bytes : List Byte), MemoryCanonical s →
    (4096 < bytes.length + 0x200 → s.loadProgram bytes = .programTooLarge) ∧
    (bytes.length + 0x200 ≤ 4096 → ∃ t, s.loadProgram bytes = .ok t ∧ MemoryCanonical t ∧
      t = { s with MEM := t.MEM } ∧
      (∀ (k : Nat) (b : Byte), bytes[k]? = some b → t.peek (0x200 + k) = b) ∧
      ∀ a : Nat, (a < 0x200 ∨ 0x200 + bytes.length ≤ a) → t.peek a = s.peek a)

/-- Source S8 with the host's SetKeys (70_reset section 2; decisions D8, D21, log 15): a waiting Fx0A stays where it is,
and the step after the host presses a key stores the lowest one and goes on. -/
def Obligations.KeyWaitEndsOnceTheHostPressesAKey : Prop :=
  ∀ (s t : State) (x : Reg) (ks : Vector Bool 16) (k : Fin 16),
    (∀ j : Fin 16, s.keyDown j = false) → exec (.ldVxK x) s = .next t →
    ks[k.val] = true → (∀ j : Fin 16, j.val < k.val → ks[j.val] = false) →
    t.pc = s.pc ∧ ∃ v, exec (.ldVxK x) (t.setKeys ks) = .next v ∧ v.pc = s.pc + 2#16 ∧
      (v.getV x).toNat = k.val ∧ v.KEY = ks ∧ WritesOnlyRegs [x] (t.setKeys ks) v

/-- The model's door for one instruction (log 10): the next step runs exactly the placed word. -/
def Obligations.PlacedWordIsRunByTheNextStep : Prop :=
  ∀ (s : State) (w : Nat), MemoryCanonical s →
    step (s.withFetchWord 16 w) = runWord (BitVec.ofNat 16 w) (s.withFetchWord 16 w)
end

