-- ==== Sys2Proof/Laws/Decode.lean ====
section
/-! SUPPORT. Encodings as numbers: the masks of the dispatch map, the fields and the formats, and row hits. -/

namespace Sys2Proof

/-! ## Masks -/

theorem land_low4 (n : Nat) : n &&& 0xF = n % 0x10 := Nat.and_two_pow_sub_one_eq_mod n 4

theorem land_low8 (n : Nat) : n &&& 0xFF = n % 0x100 := Nat.and_two_pow_sub_one_eq_mod n 8

theorem land_FFFF (n : Nat) : n &&& 0xFFFF = n % 0x10000 := Nat.and_two_pow_sub_one_eq_mod n 16

/-- An `and` worked out above and below bit `k`. -/
theorem land_split (n m k : Nat) :
    n &&& m = (n / 2 ^ k &&& m / 2 ^ k) * 2 ^ k + (n % 2 ^ k &&& m % 2 ^ k) := by
  rw [← Nat.and_div_two_pow, ← Nat.and_mod_two_pow, Nat.div_add_mod']

theorem land_F000 (n : Nat) : n &&& 0xF000 = n / 0x1000 % 0x10 * 0x1000 := by
  rw [land_split n 0xF000 12]
  simp [land_low4]

theorem land_F00F (n : Nat) : n &&& 0xF00F = n / 0x1000 % 0x10 * 0x1000 + n % 0x10 := by
  rw [land_split n 0xF00F 12, land_split (n % 2 ^ 12) _ 4]
  simp [land_low4]

theorem land_F0FF (n : Nat) : n &&& 0xF0FF = n / 0x1000 % 0x10 * 0x1000 + n % 0x100 := by
  rw [land_split n 0xF0FF 12, land_split (n % 2 ^ 12) _ 8]
  simp [land_low4, land_low8]

/-- A row's match as a statement about numbers. -/
theorem Row.hits_eq (r : Row) (w : Word) : r.hits w = decide (w.toNat &&& r.mask.toNat = r.pattern.toNat) := by
  rw [Bool.eq_iff_iff]
  simp only [Row.hits, beq_iff_eq, decide_eq_true_eq, ← BitVec.toNat_inj, BitVec.toNat_and]

/-- A word is unrecognized exactly when no row hits it. -/
theorem decode_unrecognized {w : Word} :
    decode w = .error (.unrecognized w) ↔ ∀ r ∈ opcodeRows, w.toNat &&& r.mask.toNat ≠ r.pattern.toNat := by
  have h : decode w = .error (.unrecognized w) ↔ opcodeRows.find? (fun r => r.hits w) = none := by
    unfold decode
    split <;> rename_i h <;> simp [h]
  rw [h, List.find?_eq_none]
  simp only [Row.hits_eq, decide_eq_true_eq, ne_eq]

/-! ## Fields -/

theorem fieldX_val (w : Word) : (fieldX w).val = w.toNat / 0x100 % 0x10 := by
  simp [fieldX, Nat.shiftRight_eq_div_pow]

theorem fieldY_val (w : Word) : (fieldY w).val = w.toNat / 0x10 % 0x10 := by
  simp [fieldY, Nat.shiftRight_eq_div_pow]

theorem fieldN_val (w : Word) : (fieldN w).val = w.toNat % 0x10 := by
  simp [fieldN]

theorem fieldNN_toNat (w : Word) : (fieldNN w).toNat = w.toNat % 0x100 := by
  simp [fieldNN]

theorem fieldNNN_toNat (w : Word) : (fieldNNN w).toNat = w.toNat % 0x1000 := by
  simp [fieldNNN]

/-! ## Formats -/

@[simp] theorem nibble_toNat (x : Fin 16) : (nibble x).toNat = x.val := rfl

theorem formatNNN_toNat (a : BitVec 4) (nnn : Addr12) : (formatNNN a nnn).toNat = a.toNat * 0x1000 + nnn.toNat := by
  rw [formatNNN, BitVec.toNat_append, ← Nat.shiftLeft_add_eq_or_of_lt nnn.isLt, Nat.shiftLeft_eq]

theorem formatXNN_toNat (a : BitVec 4) (x : Reg) (nn : Byte) :
    (formatXNN a x nn).toNat = a.toNat * 0x1000 + x.val * 0x100 + nn.toNat := by
  rw [formatXNN, BitVec.toNat_append, ← Nat.shiftLeft_add_eq_or_of_lt nn.isLt, BitVec.toNat_append,
    ← Nat.shiftLeft_add_eq_or_of_lt (nibble x).isLt, Nat.shiftLeft_eq, Nat.shiftLeft_eq, nibble_toNat]
  omega

theorem formatXYD_toNat (a : BitVec 4) (x y : Reg) (d : BitVec 4) :
    (formatXYD a x y d).toNat = a.toNat * 0x1000 + x.val * 0x100 + y.val * 0x10 + d.toNat := by
  rw [formatXYD, BitVec.toNat_append, ← Nat.shiftLeft_add_eq_or_of_lt d.isLt, BitVec.toNat_append,
    ← Nat.shiftLeft_add_eq_or_of_lt (nibble y).isLt, BitVec.toNat_append,
    ← Nat.shiftLeft_add_eq_or_of_lt (nibble x).isLt, Nat.shiftLeft_eq, Nat.shiftLeft_eq, Nat.shiftLeft_eq,
    nibble_toNat, nibble_toNat]
  omega

/-- Two bytes joined, high byte first. -/
theorem wordOfBytes_toNat (hi lo : Byte) : (wordOfBytes hi lo).toNat = hi.toNat * 0x100 + lo.toNat := by
  rw [wordOfBytes, BitVec.toNat_append, ← Nat.shiftLeft_add_eq_or_of_lt lo.isLt, Nat.shiftLeft_eq]

theorem highByte_toNat (w : Word) : (highByte w).toNat = w.toNat / 0x100 := by
  have := w.isLt
  simp only [highByte, BitVec.extractLsb'_toNat, Nat.shiftRight_eq_div_pow]
  omega

theorem lowByte_toNat (w : Word) : (lowByte w).toNat = w.toNat % 0x100 := by
  simp [lowByte]

/-- A word's two bytes joined are the word. -/
@[simp] theorem wordOfBytes_high_low (w : Word) : wordOfBytes (highByte w) (lowByte w) = w := by
  apply BitVec.eq_of_toNat_eq
  rw [wordOfBytes_toNat, highByte_toNat, lowByte_toNat]
  omega

end Sys2Proof
end

