-- ==== Sys2Proof/Laws/State.lean ====
section
/-! SUPPORT. One lemma per field per update of the state, true by definition. -/

namespace Sys2Proof.Machine

/-! ## `setV` -/

@[simp] theorem State.setV_pc (s : State) (x : Reg) (b : Byte) : (s.setV x b).pc = s.pc := rfl
@[simp] theorem State.setV_I (s : State) (x : Reg) (b : Byte) : (s.setV x b).I = s.I := rfl
@[simp] theorem State.setV_V (s : State) (x : Reg) (b : Byte) : (s.setV x b).V = s.V.set x.val b := rfl
@[simp] theorem State.setV_MEM (s : State) (x : Reg) (b : Byte) : (s.setV x b).MEM = s.MEM := rfl
@[simp] theorem State.setV_STACK (s : State) (x : Reg) (b : Byte) : (s.setV x b).STACK = s.STACK := rfl
@[simp] theorem State.setV_SP (s : State) (x : Reg) (b : Byte) : (s.setV x b).SP = s.SP := rfl
@[simp] theorem State.setV_DT (s : State) (x : Reg) (b : Byte) : (s.setV x b).DT = s.DT := rfl
@[simp] theorem State.setV_ST (s : State) (x : Reg) (b : Byte) : (s.setV x b).ST = s.ST := rfl
@[simp] theorem State.setV_DISP (s : State) (x : Reg) (b : Byte) : (s.setV x b).DISP = s.DISP := rfl
@[simp] theorem State.setV_KEY (s : State) (x : Reg) (b : Byte) : (s.setV x b).KEY = s.KEY := rfl
@[simp] theorem State.setV_FAULT (s : State) (x : Reg) (b : Byte) : (s.setV x b).FAULT = s.FAULT := rfl
@[simp] theorem State.setV_cfg (s : State) (x : Reg) (b : Byte) : (s.setV x b).cfg = s.cfg := rfl
@[simp] theorem State.setV_draws (s : State) (x : Reg) (b : Byte) : (s.setV x b).draws = s.draws := rfl

/-! ## `setPc` -/

@[simp] theorem State.setPc_pc (s : State) (a : Word) : (s.setPc a).pc = a := rfl
@[simp] theorem State.setPc_I (s : State) (a : Word) : (s.setPc a).I = s.I := rfl
@[simp] theorem State.setPc_V (s : State) (a : Word) : (s.setPc a).V = s.V := rfl
@[simp] theorem State.setPc_MEM (s : State) (a : Word) : (s.setPc a).MEM = s.MEM := rfl
@[simp] theorem State.setPc_STACK (s : State) (a : Word) : (s.setPc a).STACK = s.STACK := rfl
@[simp] theorem State.setPc_SP (s : State) (a : Word) : (s.setPc a).SP = s.SP := rfl
@[simp] theorem State.setPc_DT (s : State) (a : Word) : (s.setPc a).DT = s.DT := rfl
@[simp] theorem State.setPc_ST (s : State) (a : Word) : (s.setPc a).ST = s.ST := rfl
@[simp] theorem State.setPc_DISP (s : State) (a : Word) : (s.setPc a).DISP = s.DISP := rfl
@[simp] theorem State.setPc_KEY (s : State) (a : Word) : (s.setPc a).KEY = s.KEY := rfl
@[simp] theorem State.setPc_FAULT (s : State) (a : Word) : (s.setPc a).FAULT = s.FAULT := rfl
@[simp] theorem State.setPc_cfg (s : State) (a : Word) : (s.setPc a).cfg = s.cfg := rfl
@[simp] theorem State.setPc_draws (s : State) (a : Word) : (s.setPc a).draws = s.draws := rfl

/-! ## `setI` -/

@[simp] theorem State.setI_pc (s : State) (a : Word) : (s.setI a).pc = s.pc := rfl
@[simp] theorem State.setI_I (s : State) (a : Word) : (s.setI a).I = a := rfl
@[simp] theorem State.setI_V (s : State) (a : Word) : (s.setI a).V = s.V := rfl
@[simp] theorem State.setI_MEM (s : State) (a : Word) : (s.setI a).MEM = s.MEM := rfl
@[simp] theorem State.setI_STACK (s : State) (a : Word) : (s.setI a).STACK = s.STACK := rfl
@[simp] theorem State.setI_SP (s : State) (a : Word) : (s.setI a).SP = s.SP := rfl
@[simp] theorem State.setI_DT (s : State) (a : Word) : (s.setI a).DT = s.DT := rfl
@[simp] theorem State.setI_ST (s : State) (a : Word) : (s.setI a).ST = s.ST := rfl
@[simp] theorem State.setI_DISP (s : State) (a : Word) : (s.setI a).DISP = s.DISP := rfl
@[simp] theorem State.setI_KEY (s : State) (a : Word) : (s.setI a).KEY = s.KEY := rfl
@[simp] theorem State.setI_FAULT (s : State) (a : Word) : (s.setI a).FAULT = s.FAULT := rfl
@[simp] theorem State.setI_cfg (s : State) (a : Word) : (s.setI a).cfg = s.cfg := rfl
@[simp] theorem State.setI_draws (s : State) (a : Word) : (s.setI a).draws = s.draws := rfl

/-! ## `poke` -/

@[simp] theorem State.poke_pc (s : State) (i : Nat) (b : Byte) : (s.poke i b).pc = s.pc := rfl
@[simp] theorem State.poke_I (s : State) (i : Nat) (b : Byte) : (s.poke i b).I = s.I := rfl
@[simp] theorem State.poke_V (s : State) (i : Nat) (b : Byte) : (s.poke i b).V = s.V := rfl
@[simp] theorem State.poke_MEM (s : State) (i : Nat) (b : Byte) : (s.poke i b).MEM = Memory.write s.cfg.font s.MEM i b := rfl
@[simp] theorem State.poke_STACK (s : State) (i : Nat) (b : Byte) : (s.poke i b).STACK = s.STACK := rfl
@[simp] theorem State.poke_SP (s : State) (i : Nat) (b : Byte) : (s.poke i b).SP = s.SP := rfl
@[simp] theorem State.poke_DT (s : State) (i : Nat) (b : Byte) : (s.poke i b).DT = s.DT := rfl
@[simp] theorem State.poke_ST (s : State) (i : Nat) (b : Byte) : (s.poke i b).ST = s.ST := rfl
@[simp] theorem State.poke_DISP (s : State) (i : Nat) (b : Byte) : (s.poke i b).DISP = s.DISP := rfl
@[simp] theorem State.poke_KEY (s : State) (i : Nat) (b : Byte) : (s.poke i b).KEY = s.KEY := rfl
@[simp] theorem State.poke_FAULT (s : State) (i : Nat) (b : Byte) : (s.poke i b).FAULT = s.FAULT := rfl
@[simp] theorem State.poke_cfg (s : State) (i : Nat) (b : Byte) : (s.poke i b).cfg = s.cfg := rfl
@[simp] theorem State.poke_draws (s : State) (i : Nat) (b : Byte) : (s.poke i b).draws = s.draws := rfl

/-! ## `latchFault` -/

@[simp] theorem State.latchFault_pc (s : State) (k : FaultKind) (op : Option Word) : (s.latchFault k op).pc = s.pc := rfl
@[simp] theorem State.latchFault_I (s : State) (k : FaultKind) (op : Option Word) : (s.latchFault k op).I = s.I := rfl
@[simp] theorem State.latchFault_V (s : State) (k : FaultKind) (op : Option Word) : (s.latchFault k op).V = s.V := rfl
@[simp] theorem State.latchFault_MEM (s : State) (k : FaultKind) (op : Option Word) : (s.latchFault k op).MEM = s.MEM := rfl
@[simp] theorem State.latchFault_STACK (s : State) (k : FaultKind) (op : Option Word) : (s.latchFault k op).STACK = s.STACK := rfl
@[simp] theorem State.latchFault_SP (s : State) (k : FaultKind) (op : Option Word) : (s.latchFault k op).SP = s.SP := rfl
@[simp] theorem State.latchFault_DT (s : State) (k : FaultKind) (op : Option Word) : (s.latchFault k op).DT = s.DT := rfl
@[simp] theorem State.latchFault_ST (s : State) (k : FaultKind) (op : Option Word) : (s.latchFault k op).ST = s.ST := rfl
@[simp] theorem State.latchFault_DISP (s : State) (k : FaultKind) (op : Option Word) : (s.latchFault k op).DISP = s.DISP := rfl
@[simp] theorem State.latchFault_KEY (s : State) (k : FaultKind) (op : Option Word) : (s.latchFault k op).KEY = s.KEY := rfl
@[simp] theorem State.latchFault_FAULT (s : State) (k : FaultKind) (op : Option Word) : (s.latchFault k op).FAULT = some ⟨k, op, s.pc⟩ := rfl
@[simp] theorem State.latchFault_cfg (s : State) (k : FaultKind) (op : Option Word) : (s.latchFault k op).cfg = s.cfg := rfl
@[simp] theorem State.latchFault_draws (s : State) (k : FaultKind) (op : Option Word) : (s.latchFault k op).draws = s.draws := rfl

/-! ## `preExecute` -/

@[simp] theorem State.preExecute_pc (s : State) : (s.preExecute).pc = s.pc + 2#16 := rfl
@[simp] theorem State.preExecute_I (s : State) : (s.preExecute).I = s.I := rfl
@[simp] theorem State.preExecute_V (s : State) : (s.preExecute).V = s.V := rfl
@[simp] theorem State.preExecute_MEM (s : State) : (s.preExecute).MEM = s.MEM := rfl
@[simp] theorem State.preExecute_STACK (s : State) : (s.preExecute).STACK = s.STACK := rfl
@[simp] theorem State.preExecute_SP (s : State) : (s.preExecute).SP = s.SP := rfl
@[simp] theorem State.preExecute_DT (s : State) : (s.preExecute).DT = countDown s.DT := rfl
@[simp] theorem State.preExecute_ST (s : State) : (s.preExecute).ST = countDown s.ST := rfl
@[simp] theorem State.preExecute_DISP (s : State) : (s.preExecute).DISP = s.DISP := rfl
@[simp] theorem State.preExecute_KEY (s : State) : (s.preExecute).KEY = s.KEY := rfl
@[simp] theorem State.preExecute_FAULT (s : State) : (s.preExecute).FAULT = s.FAULT := rfl
@[simp] theorem State.preExecute_cfg (s : State) : (s.preExecute).cfg = s.cfg := rfl
@[simp] theorem State.preExecute_draws (s : State) : (s.preExecute).draws = s.draws + 1 := rfl

/-! ## `setVWithFlag` -/

@[simp] theorem State.setVWithFlag_pc (s : State) (x : Reg) (r f : Byte) : (s.setVWithFlag x r f).pc = s.pc := rfl
@[simp] theorem State.setVWithFlag_I (s : State) (x : Reg) (r f : Byte) : (s.setVWithFlag x r f).I = s.I := rfl
@[simp] theorem State.setVWithFlag_V (s : State) (x : Reg) (r f : Byte) : (s.setVWithFlag x r f).V = (s.V.set x.val r).set VF.val f := rfl
@[simp] theorem State.setVWithFlag_MEM (s : State) (x : Reg) (r f : Byte) : (s.setVWithFlag x r f).MEM = s.MEM := rfl
@[simp] theorem State.setVWithFlag_STACK (s : State) (x : Reg) (r f : Byte) : (s.setVWithFlag x r f).STACK = s.STACK := rfl
@[simp] theorem State.setVWithFlag_SP (s : State) (x : Reg) (r f : Byte) : (s.setVWithFlag x r f).SP = s.SP := rfl
@[simp] theorem State.setVWithFlag_DT (s : State) (x : Reg) (r f : Byte) : (s.setVWithFlag x r f).DT = s.DT := rfl
@[simp] theorem State.setVWithFlag_ST (s : State) (x : Reg) (r f : Byte) : (s.setVWithFlag x r f).ST = s.ST := rfl
@[simp] theorem State.setVWithFlag_DISP (s : State) (x : Reg) (r f : Byte) : (s.setVWithFlag x r f).DISP = s.DISP := rfl
@[simp] theorem State.setVWithFlag_KEY (s : State) (x : Reg) (r f : Byte) : (s.setVWithFlag x r f).KEY = s.KEY := rfl
@[simp] theorem State.setVWithFlag_FAULT (s : State) (x : Reg) (r f : Byte) : (s.setVWithFlag x r f).FAULT = s.FAULT := rfl
@[simp] theorem State.setVWithFlag_cfg (s : State) (x : Reg) (r f : Byte) : (s.setVWithFlag x r f).cfg = s.cfg := rfl
@[simp] theorem State.setVWithFlag_draws (s : State) (x : Reg) (r f : Byte) : (s.setVWithFlag x r f).draws = s.draws := rfl

/-! ## `bumpI` -/

@[simp] theorem State.bumpI_pc (s : State) (x : Reg) : (s.bumpI x).pc = s.pc := rfl
@[simp] theorem State.bumpI_I (s : State) (x : Reg) : (s.bumpI x).I = s.I + BitVec.ofNat 16 (x.val + 1) := rfl
@[simp] theorem State.bumpI_V (s : State) (x : Reg) : (s.bumpI x).V = s.V := rfl
@[simp] theorem State.bumpI_MEM (s : State) (x : Reg) : (s.bumpI x).MEM = s.MEM := rfl
@[simp] theorem State.bumpI_STACK (s : State) (x : Reg) : (s.bumpI x).STACK = s.STACK := rfl
@[simp] theorem State.bumpI_SP (s : State) (x : Reg) : (s.bumpI x).SP = s.SP := rfl
@[simp] theorem State.bumpI_DT (s : State) (x : Reg) : (s.bumpI x).DT = s.DT := rfl
@[simp] theorem State.bumpI_ST (s : State) (x : Reg) : (s.bumpI x).ST = s.ST := rfl
@[simp] theorem State.bumpI_DISP (s : State) (x : Reg) : (s.bumpI x).DISP = s.DISP := rfl
@[simp] theorem State.bumpI_KEY (s : State) (x : Reg) : (s.bumpI x).KEY = s.KEY := rfl
@[simp] theorem State.bumpI_FAULT (s : State) (x : Reg) : (s.bumpI x).FAULT = s.FAULT := rfl
@[simp] theorem State.bumpI_cfg (s : State) (x : Reg) : (s.bumpI x).cfg = s.cfg := rfl
@[simp] theorem State.bumpI_draws (s : State) (x : Reg) : (s.bumpI x).draws = s.draws := rfl

/-! ## `setKeys` -/

@[simp] theorem State.setKeys_pc (s : State) (k : Vector Bool 16) : (s.setKeys k).pc = s.pc := rfl
@[simp] theorem State.setKeys_I (s : State) (k : Vector Bool 16) : (s.setKeys k).I = s.I := rfl
@[simp] theorem State.setKeys_V (s : State) (k : Vector Bool 16) : (s.setKeys k).V = s.V := rfl
@[simp] theorem State.setKeys_MEM (s : State) (k : Vector Bool 16) : (s.setKeys k).MEM = s.MEM := rfl
@[simp] theorem State.setKeys_STACK (s : State) (k : Vector Bool 16) : (s.setKeys k).STACK = s.STACK := rfl
@[simp] theorem State.setKeys_SP (s : State) (k : Vector Bool 16) : (s.setKeys k).SP = s.SP := rfl
@[simp] theorem State.setKeys_DT (s : State) (k : Vector Bool 16) : (s.setKeys k).DT = s.DT := rfl
@[simp] theorem State.setKeys_ST (s : State) (k : Vector Bool 16) : (s.setKeys k).ST = s.ST := rfl
@[simp] theorem State.setKeys_DISP (s : State) (k : Vector Bool 16) : (s.setKeys k).DISP = s.DISP := rfl
@[simp] theorem State.setKeys_KEY (s : State) (k : Vector Bool 16) : (s.setKeys k).KEY = k := rfl
@[simp] theorem State.setKeys_FAULT (s : State) (k : Vector Bool 16) : (s.setKeys k).FAULT = s.FAULT := rfl
@[simp] theorem State.setKeys_cfg (s : State) (k : Vector Bool 16) : (s.setKeys k).cfg = s.cfg := rfl
@[simp] theorem State.setKeys_draws (s : State) (k : Vector Bool 16) : (s.setKeys k).draws = s.draws := rfl

/-! ## Reading a register through the updates -/

@[simp] theorem State.getV_setV_same (s : State) (x : Reg) (b : Byte) : (s.setV x b).getV x = b := by
  simp [State.getV]

theorem State.getV_setV_of_ne (s : State) {x r : Reg} (b : Byte) (h : r ≠ x) : (s.setV x b).getV r = s.getV r := by
  have h' : x.val ≠ r.val := fun e => h (Fin.ext e.symm)
  simp [State.getV, h']

@[simp] theorem State.getV_setVWithFlag_VF (s : State) (x : Reg) (r f : Byte) : (s.setVWithFlag x r f).getV VF = f := by
  simp [State.setVWithFlag]

theorem State.getV_setVWithFlag_dest (s : State) {x : Reg} (r f : Byte) (h : x ≠ VF) :
    (s.setVWithFlag x r f).getV x = r := by
  simp [State.setVWithFlag, State.getV_setV_of_ne _ _ h]

theorem State.getV_setVWithFlag_other (s : State) {x q : Reg} (r f : Byte) (h : q ≠ x) (h' : q ≠ VF) :
    (s.setVWithFlag x r f).getV q = s.getV q := by
  simp [State.setVWithFlag, State.getV_setV_of_ne _ _ h, State.getV_setV_of_ne _ _ h']

/-- A register reads by `V` alone. -/
theorem State.getV_of_V_eq {s t : State} (h : t.V = s.V) (r : Reg) : t.getV r = s.getV r := by
  simp [State.getV, h]

@[simp] theorem State.getV_preExecute (s : State) (r : Reg) : s.preExecute.getV r = s.getV r := rfl
@[simp] theorem State.getV_setPc (s : State) (a : Word) (r : Reg) : (s.setPc a).getV r = s.getV r := rfl
@[simp] theorem State.getV_setI (s : State) (a : Word) (r : Reg) : (s.setI a).getV r = s.getV r := rfl
@[simp] theorem State.getV_bumpI (s : State) (x r : Reg) : (s.bumpI x).getV r = s.getV r := rfl
@[simp] theorem State.getV_poke (s : State) (i : Nat) (b : Byte) (r : Reg) : (s.poke i b).getV r = s.getV r := rfl
@[simp] theorem State.getV_latchFault (s : State) (k : FaultKind) (op : Option Word) (r : Reg) :
    (s.latchFault k op).getV r = s.getV r := rfl

/-! ## Reading a byte of memory through the updates -/

/-- A byte of memory reads by `MEM` and the font alone. -/
theorem State.peek_of_MEM_eq {s t : State} (h : t.MEM = s.MEM) (h' : t.cfg = s.cfg) (a : Nat) : t.peek a = s.peek a := by
  simp [State.peek, h, h']

@[simp] theorem State.peek_preExecute (s : State) (a : Nat) : s.preExecute.peek a = s.peek a := rfl
@[simp] theorem State.peek_setPc (s : State) (w : Word) (a : Nat) : (s.setPc w).peek a = s.peek a := rfl
@[simp] theorem State.peek_setI (s : State) (w : Word) (a : Nat) : (s.setI w).peek a = s.peek a := rfl
@[simp] theorem State.peek_bumpI (s : State) (x : Reg) (a : Nat) : (s.bumpI x).peek a = s.peek a := rfl
@[simp] theorem State.peek_setV (s : State) (x : Reg) (b : Byte) (a : Nat) : (s.setV x b).peek a = s.peek a := rfl
@[simp] theorem State.peek_setVWithFlag (s : State) (x : Reg) (r f : Byte) (a : Nat) :
    (s.setVWithFlag x r f).peek a = s.peek a := rfl
@[simp] theorem State.peek_latchFault (s : State) (k : FaultKind) (op : Option Word) (a : Nat) :
    (s.latchFault k op).peek a = s.peek a := rfl
@[simp] theorem State.keyDown_preExecute (s : State) (k : Fin 16) : s.preExecute.keyDown k = s.keyDown k := rfl

end Sys2Proof.Machine
end

