-- ==== Sys2Proof/Laws/Memory.lean ====
section
/-! SUPPORT. Laws of memory: read after write, the canonical form, translation, and stores of a block. -/

namespace Sys2Proof.Machine

variable {font : Vector Byte 80}

/-! ## The canonical form -/

theorem Memory.wfFrom_mono {m : Memory} {lo lo' : Nat} (h : lo' ≤ lo) (hm : Memory.wfFrom font lo m = true) :
    Memory.wfFrom font lo' m = true := by
  cases m with
  | nil => rfl
  | cons c m =>
    obtain ⟨k, v⟩ := c
    simp only [Memory.wfFrom, Bool.and_eq_true, decide_eq_true_eq, bne_iff_ne, ne_eq] at hm ⊢
    exact ⟨⟨⟨by omega, hm.1.1.2⟩, hm.1.2⟩, hm.2⟩

/-- What a canonical non-empty memory says. -/
theorem Memory.wfFrom_cons {lo k : Nat} {v : Byte} {m : Memory} :
    Memory.wfFrom font lo ((k, v) :: m) = true ↔
      lo ≤ k ∧ k < memSize ∧ v ≠ resetByte font k ∧ Memory.wfFrom font (k + 1) m = true := by
  simp [Memory.wfFrom, and_assoc]

/-- An address below every listed one reads as unlisted. -/
theorem Memory.read_below {m : Memory} {lo a : Nat} (hm : Memory.wfFrom font lo m = true) (h : a < lo) :
    Memory.read font m a = resetByte font a := by
  induction m generalizing lo with
  | nil => rfl
  | cons c m ih =>
    obtain ⟨k, v⟩ := c
    obtain ⟨hk, -, -, hm⟩ := Memory.wfFrom_cons.1 hm
    simp only [Memory.read]
    rw [if_neg (by omega), ih hm (by omega)]

theorem Memory.consUnlessReset_wf {m : Memory} {lo a : Nat} {b : Byte} (ha : lo ≤ a) (hs : a < memSize)
    (hm : Memory.wfFrom font (a + 1) m = true) : Memory.wfFrom font lo (Memory.consUnlessReset font a b m) = true := by
  unfold Memory.consUnlessReset
  split
  · exact Memory.wfFrom_mono (by omega) hm
  · exact Memory.wfFrom_cons.2 ⟨ha, hs, by assumption, hm⟩

theorem Memory.write_wfFrom {m : Memory} {lo a : Nat} {b : Byte} (hm : Memory.wfFrom font lo m = true) (ha : lo ≤ a)
    (hs : a < memSize) : Memory.wfFrom font lo (Memory.write font m a b) = true := by
  induction m generalizing lo with
  | nil => exact Memory.consUnlessReset_wf ha hs rfl
  | cons c m ih =>
    obtain ⟨k, v⟩ := c
    obtain ⟨hk, hks, hv, hm⟩ := Memory.wfFrom_cons.1 hm
    simp only [Memory.write]
    split
    · exact Memory.consUnlessReset_wf ha hs (Memory.wfFrom_cons.2 ⟨by omega, hks, hv, hm⟩)
    · split
      · subst_vars
        exact Memory.consUnlessReset_wf ha hs hm
      · exact Memory.wfFrom_cons.2 ⟨hk, hks, hv, ih hm (by omega)⟩

/-- Every write below 4096 keeps the canonical form. -/
theorem Memory.write_wf {m : Memory} {a : Nat} {b : Byte} (hm : Memory.wf font m = true) (hs : a < memSize) :
    Memory.wf font (Memory.write font m a b) = true := Memory.write_wfFrom hm (Nat.zero_le _) hs

@[simp] theorem Memory.wf_nil : Memory.wf font [] = true := rfl

/-! ## Read after write -/

theorem Memory.read_consUnlessReset_same {m : Memory} {a : Nat} {b : Byte} (hm : Memory.wfFrom font (a + 1) m = true) :
    Memory.read font (Memory.consUnlessReset font a b m) a = b := by
  unfold Memory.consUnlessReset
  split
  · rename_i h
    rw [Memory.read_below hm (by omega), h]
  · simp [Memory.read]

theorem Memory.read_consUnlessReset_of_ne {m : Memory} {a c : Nat} {b : Byte} (h : c ≠ a) :
    Memory.read font (Memory.consUnlessReset font a b m) c = Memory.read font m c := by
  unfold Memory.consUnlessReset
  split
  · rfl
  · simp [Memory.read, h]

theorem Memory.read_write_same_from {m : Memory} {lo a : Nat} {b : Byte} (hm : Memory.wfFrom font lo m = true) :
    Memory.read font (Memory.write font m a b) a = b := by
  induction m generalizing lo with
  | nil => exact Memory.read_consUnlessReset_same rfl
  | cons c m ih =>
    obtain ⟨k, v⟩ := c
    obtain ⟨hk, hks, hv, hm⟩ := Memory.wfFrom_cons.1 hm
    simp only [Memory.write]
    split
    · exact Memory.read_consUnlessReset_same (Memory.wfFrom_cons.2 ⟨by omega, hks, hv, hm⟩)
    · split
      · subst_vars
        exact Memory.read_consUnlessReset_same hm
      · rename_i h
        simp only [Memory.read, if_neg h]
        exact ih hm

/-- A read after a write to the same address gives the value written. -/
theorem Memory.read_write_same {m : Memory} {a : Nat} {b : Byte} (hm : Memory.wf font m = true) :
    Memory.read font (Memory.write font m a b) a = b := Memory.read_write_same_from hm

/-- A write leaves every other address alone, in any memory. -/
theorem Memory.read_write_of_ne {m : Memory} {a c : Nat} {b : Byte} (h : c ≠ a) :
    Memory.read font (Memory.write font m a b) c = Memory.read font m c := by
  induction m with
  | nil => exact Memory.read_consUnlessReset_of_ne h
  | cons e m ih =>
    obtain ⟨k, v⟩ := e
    simp only [Memory.write]
    split
    · exact Memory.read_consUnlessReset_of_ne h
    · split
      · subst_vars
        rw [Memory.read_consUnlessReset_of_ne h]
        simp [Memory.read, h]
      · simp only [Memory.read, ih]

theorem State.peek_poke_same {s : State} {a : Nat} {b : Byte} (h : Memory.wf s.cfg.font s.MEM = true) :
    (s.poke a b).peek a = b := Memory.read_write_same h

theorem State.peek_poke_of_ne {s : State} {a c : Nat} {b : Byte} (h : c ≠ a) : (s.poke a b).peek c = s.peek c :=
  Memory.read_write_of_ne h

theorem State.poke_canonical {s : State} {a : Nat} {b : Byte} (h : MemoryCanonical s) (ha : a < memSize) :
    MemoryCanonical (s.poke a b) := Memory.write_wf h ha

/-! ## Stores of a block -/

/-- A store of a block changes memory alone. -/
theorem State.pokeAll_eq (is : List Nat) (bs : List Byte) (s : State) :
    State.pokeAll is bs s = { s with MEM := (State.pokeAll is bs s).MEM } := by
  induction is generalizing bs s with
  | nil => cases bs <;> rfl
  | cons i is ih =>
    cases bs with
    | nil => rfl
    | cons b bs =>
      simp only [State.pokeAll]
      rw [ih]
      rfl

/-- What a store of a block leaves in memory depends on memory and the parameters alone. -/
theorem State.pokeAll_congr {s s' : State} (is : List Nat) (bs : List Byte) (hm : s'.MEM = s.MEM) (hc : s'.cfg = s.cfg) :
    (State.pokeAll is bs s').MEM = (State.pokeAll is bs s).MEM := by
  induction is generalizing bs s s' with
  | nil => cases bs <;> exact hm
  | cons i is ih =>
    cases bs with
    | nil => exact hm
    | cons b bs => exact ih bs (by simp [State.poke, hm, hc]) hc

theorem State.pokeAll_canonical {is : List Nat} (bs : List Byte) {s : State} (h : MemoryCanonical s)
    (hi : ∀ i ∈ is, i < memSize) : MemoryCanonical (State.pokeAll is bs s) := by
  induction is generalizing bs s with
  | nil => cases bs <;> exact h
  | cons i is ih =>
    cases bs with
    | nil => exact h
    | cons b bs =>
      exact ih bs (State.poke_canonical h (hi i (by simp))) fun j hj => hi j (by simp [hj])

/-- An address outside the block reads as before. -/
theorem State.peek_pokeAll_outside {is : List Nat} (bs : List Byte) (s : State) {a : Nat} (ha : a ∉ is) :
    (State.pokeAll is bs s).peek a = s.peek a := by
  induction is generalizing bs s with
  | nil => cases bs <;> rfl
  | cons i is ih =>
    cases bs with
    | nil => rfl
    | cons b bs =>
      simp only [List.mem_cons, not_or] at ha
      simp only [State.pokeAll]
      rw [ih bs (s.poke i b) ha.2, State.peek_poke_of_ne ha.1]

/-- The `k`-th index of a block without repeats reads as the `k`-th byte stored. -/
theorem State.peek_pokeAll_at {is : List Nat} {bs : List Byte} {s : State} (h : MemoryCanonical s)
    (hi : ∀ i ∈ is, i < memSize) (hn : is.Nodup) {k i : Nat} {b : Byte} (hk : is[k]? = some i) (hb : bs[k]? = some b) :
    (State.pokeAll is bs s).peek i = b := by
  induction is generalizing bs s k with
  | nil => simp at hk
  | cons j is ih =>
    cases bs with
    | nil => simp at hb
    | cons c bs =>
      have hj : MemoryCanonical (s.poke j c) := State.poke_canonical h (hi j (by simp))
      obtain ⟨hnj, hn⟩ := List.nodup_cons.1 hn
      cases k with
      | zero =>
        simp only [List.getElem?_cons_zero, Option.some.injEq] at hk hb
        subst hk hb
        simp only [State.pokeAll]
        rw [State.peek_pokeAll_outside _ _ hnj, State.peek_poke_same h]
      | succ k =>
        simp only [List.getElem?_cons_succ] at hk hb
        exact ih hj (fun q hq => hi q (by simp [hq])) hn hk hb

/-! ## Translation -/

/-- Every index a translation gives is one of memory's. -/
theorem translateAddr_lt {p : AddrPolicy} {a i : Nat} (h : translateAddr p a = .ok i) : i < memSize ∧ i = a % memSize := by
  unfold translateAddr at h
  split at h
  · cases h
    exact ⟨by assumption, (Nat.mod_eq_of_lt (by assumption)).symm⟩
  · cases p with
    | fault => simp at h
    | wrap =>
      cases h
      exact ⟨Nat.mod_lt _ (by decide), rfl⟩

/-- What a translation that faults says. -/
theorem translateAddr_error {p : AddrPolicy} {a : Nat} {k : FaultKind} (h : translateAddr p a = .error k) :
    p = .fault ∧ memSize ≤ a ∧ k = .memoryOutOfRange a := by
  unfold translateAddr at h
  split at h
  · simp at h
  · cases p with
    | fault =>
      cases h
      exact ⟨rfl, by omega, rfl⟩
    | wrap => simp at h

/-- A block that translates: its indices are the addresses modulo 4096, and it has as many as asked for. -/
theorem translateBlock_ok {p : AddrPolicy} {a n : Nat} {is : List Nat} (h : translateBlock p a n = .ok is) :
    is = (List.range n).map fun k => (a + k) % memSize := by
  induction n generalizing a is with
  | zero =>
    cases h
    rfl
  | succ n ih =>
    simp only [translateBlock] at h
    split at h
    · simp at h
    · rename_i i hi
      split at h
      · simp at h
      · rename_i js hjs
        cases h
        rw [ih hjs, (translateAddr_lt hi).2, List.range_succ_eq_map]
        simp [Function.comp_def, Nat.add_assoc, Nat.add_comm 1]

/-- A block that translates lies in memory, or is empty, or the policy wraps. -/
theorem translateBlock_range {p : AddrPolicy} {a n : Nat} {is : List Nat} (h : translateBlock p a n = .ok is) :
    p = .wrap ∨ n = 0 ∨ a + n ≤ memSize := by
  induction n generalizing a is with
  | zero => exact .inr (.inl rfl)
  | succ n ih =>
    cases p with
    | wrap => exact .inl rfl
    | fault =>
      simp only [translateBlock] at h
      split at h
      · simp at h
      · rename_i i hi
        split at h
        · simp at h
        · rename_i js hjs
          have ha : a < memSize := by
            by_contra hc
            simp [translateAddr, hc] at hi
          have := ih hjs
          simp only [reduceCtorEq, false_or] at this
          omega

theorem translateBlock_length {p : AddrPolicy} {a n : Nat} {is : List Nat} (h : translateBlock p a n = .ok is) :
    is.length = n := by
  simp [translateBlock_ok h]

theorem translateBlock_lt {p : AddrPolicy} {a n : Nat} {is : List Nat} (h : translateBlock p a n = .ok is) :
    ∀ i ∈ is, i < memSize := by
  intro i hi
  rw [translateBlock_ok h] at hi
  obtain ⟨k, -, rfl⟩ := List.mem_map.1 hi
  exact Nat.mod_lt _ (by decide)

/-- At most 4096 addresses in a row are different indices. -/
theorem translateBlock_nodup {p : AddrPolicy} {a n : Nat} {is : List Nat} (h : translateBlock p a n = .ok is)
    (hn : n ≤ memSize) : is.Nodup := by
  rw [translateBlock_ok h]
  refine List.Nodup.map_on ?_ List.nodup_range
  intro i hi j hj hij
  simp only [List.mem_range, memSize] at *
  omega

/-- What a block that faults says: its policy, and its lowest address outside memory. -/
theorem translateBlock_error {p : AddrPolicy} {a n : Nat} {k : FaultKind} (h : translateBlock p a n = .error k) :
    p = .fault ∧ 0 < n ∧ memSize < a + n ∧ k = .memoryOutOfRange (max a memSize) := by
  induction n generalizing a with
  | zero => simp [translateBlock] at h
  | succ n ih =>
    simp only [translateBlock] at h
    split at h
    · rename_i e he
      cases h
      obtain ⟨hp, ha, rfl⟩ := translateAddr_error he
      exact ⟨hp, by omega, by omega, by rw [Nat.max_eq_left ha]⟩
    · rename_i i hi
      split at h
      · rename_i e he
        cases h
        obtain ⟨hp, -, hlt, rfl⟩ := ih he
        refine ⟨hp, by omega, by omega, ?_⟩
        have : a < memSize := by
          by_contra hc
          subst hp
          simp [translateAddr, hc] at hi
        congr 1
        omega
      · simp at h

end Sys2Proof.Machine
end

