-- ==== Sys2Proof/Laws/Ops.lean ====
section
/-! SUPPORT. One lemma per shared operation that says all it can do, and the small arithmetic of operands and flags. -/

namespace Sys2Proof.Machine

/-! ## Arithmetic -/

theorem countDown_toNat (t : Byte) : (countDown t).toNat = t.toNat - 1 := by
  unfold countDown
  split
  · rename_i h
    simp [h]
  · rename_i h
    have h' : t.toNat ≠ 0 := fun e => h (BitVec.eq_of_toNat_eq (by simpa using e))
    rw [BitVec.toNat_sub]
    have := t.isLt
    simp only [BitVec.toNat_ofNat]
    omega

theorem addResult_toNat (a b : Byte) : (addResult a b).toNat = (a.toNat + b.toNat) % 256 := by
  simp [addResult]

theorem subResult_toNat (a b : Byte) : (subResult a b).toNat = (a.toNat + 256 - b.toNat) % 256 := by
  have := a.isLt
  have := b.isLt
  simp only [subResult, BitVec.toNat_sub]
  omega

theorem shrResult_toNat (a : Byte) : (shrResult a).toNat = a.toNat / 2 := by
  simp [shrResult, Nat.shiftRight_eq_div_pow]

theorem shlResult_toNat (a : Byte) : (shlResult a).toNat = a.toNat * 2 % 256 := by
  simp [shlResult, Nat.shiftLeft_eq]

@[simp] theorem flagByte_toNat (b : Bool) : (flagByte b).toNat = if b then 1 else 0 := by
  cases b <;> rfl

theorem lowBitFlag_toNat (a : Byte) : (lowBitFlag a).toNat = a.toNat % 2 := by
  simp only [lowBitFlag, flagByte_toNat, BitVec.getLsbD, Nat.testBit_zero]
  rcases Nat.mod_two_eq_zero_or_one a.toNat with h | h <;> simp [h]

theorem highBitFlag_toNat (a : Byte) : (highBitFlag a).toNat = a.toNat / 128 := by
  have := a.isLt
  simp only [highBitFlag, flagByte_toNat, BitVec.getLsbD, Nat.testBit_eq_decide_div_mod_eq]
  have h : a.toNat / 128 < 2 := by omega
  rcases (show a.toNat / 128 = 0 ∨ a.toNat / 128 = 1 by omega) with h | h <;> simp [h]

@[simp] theorem zextAddr_toNat (a : Addr12) : (zextAddr a).toNat = a.toNat := by
  have := a.isLt
  simp only [zextAddr, BitVec.toNat_setWidth]
  omega

@[simp] theorem zextByte_toNat (b : Byte) : (zextByte b).toNat = b.toNat := by
  have := b.isLt
  simp only [zextByte, BitVec.toNat_setWidth]
  omega

/-- The key number, where there is one, is the low nibble of the register. -/
theorem keyNumber_ok {p : KeyIndexPolicy} {v : Byte} {k : Fin 16} (h : keyNumber p v = .ok k) :
    k.val = v.toNat % 16 ∧ (v.toNat < 16 ∨ p = .lowNibble) := by
  unfold keyNumber at h
  split at h
  · rename_i hv
    cases h
    exact ⟨(Nat.mod_eq_of_lt hv).symm, .inl hv⟩
  · cases p with
    | fault => simp at h
    | lowNibble =>
      cases h
      exact ⟨by simp, .inr rfl⟩

/-- Where there is none, the policy faults and the number is too large. -/
theorem keyNumber_error {p : KeyIndexPolicy} {v : Byte} {e : FaultKind} (h : keyNumber p v = .error e) :
    p = .fault ∧ 16 ≤ v.toNat ∧ e = .keyIndexOutOfRange v := by
  unfold keyNumber at h
  split at h
  · simp at h
  · cases p with
    | fault =>
      cases h
      exact ⟨rfl, by omega, rfl⟩
    | lowNibble => simp at h

/-- The lowest pressed key is pressed and every lower one is not. -/
theorem State.lowestKey_some {s : State} {k : Fin 16} (h : s.lowestKey = some k) :
    s.keyDown k = true ∧ ∀ j : Fin 16, j.val < k.val → s.keyDown j = false := by
  obtain ⟨hk, as, bs, heq, has⟩ := List.find?_eq_some_iff_append.1 h
  refine ⟨hk, fun j hj => ?_⟩
  have hsorted : (List.finRange 16).Pairwise (· < ·) := by decide
  rw [heq] at hsorted
  have hmem : j ∈ as ++ k :: bs := heq ▸ List.mem_finRange j
  rcases List.mem_append.1 hmem with hm | hm
  · simpa using has j hm
  · rcases List.mem_cons.1 hm with hm | hm
    · omega
    · have := List.rel_of_pairwise_cons (List.pairwise_append.1 hsorted).2.1 hm
      omega

theorem State.lowestKey_none {s : State} (h : s.lowestKey = none) (k : Fin 16) : s.keyDown k = false := by
  simpa using List.find?_eq_none.1 h k (List.mem_finRange k)

/-! ## How a meaning ends -/

/-- A meaning that raises nothing answers the next state its effect gives. -/
theorem complete_next {s t : State} {f : State → State} : complete s f = .next t ↔ t = f s.preExecute := by
  simp only [complete, Host.Outcome.next.injEq]
  exact eq_comm

/-- A meaning with a check answers its phase's state, or the state with only the latch changed. -/
theorem runPhase_next {s t : State} {i : Instr} {phase : State → Except FaultKind State} :
    runPhase s i phase = .next t ↔
      phase s.preExecute = .ok t ∨ ∃ k, phase s.preExecute = .error k ∧ t = s.latchFault k (some (encode i)) := by
  unfold runPhase
  split <;> rename_i h <;> simp [h, eq_comm]

/-- Every meaning answers a next state: there is no fault and no refusal among the arms. -/
theorem exec_answers_next (i : Instr) (s : State) : ∃ t, exec i s = .next t := by
  have hc : ∀ f, ∃ t, complete s f = .next t := fun f => ⟨_, rfl⟩
  have hr : ∀ (j : Instr) (p : State → Except FaultKind State), ∃ t, runPhase s j p = .next t := fun j p => by
    unfold runPhase
    split <;> exact ⟨_, rfl⟩
  cases i <;>
    simp only [exec, execCls, execRet, execSys, execJp, execCall, execSeImm, execSneImm, execSeReg, execSneReg, execJpV0,
      execLdImm, execAddImm, execLdReg, execOrReg, execAndReg, execXorReg, execAddReg, execSubReg, execShrReg,
      execSubnReg, execShlReg, execRnd, execLdI, execAddIVx, execLdFVx, execLdBVx, execStoreRegs, execLoadRegs, execDrw,
      execSkp, execSknp, execLdVxDT, execLdVxK, execLdDTVx, execLdSTVx] <;>
    first | exact hc _ | exact hr _ _

/-! ## Control flow -/

theorem State.skipIf_eq (s : State) (c : Bool) :
    s.skipIf c = { s with pc := s.pc + if c then 2#16 else 0#16 } := by
  cases c
  · simp [State.skipIf]
  · rfl

/-- All a push can do. -/
theorem State.push_cases (s : State) (w : Word) :
    (∃ h : s.SP.val < 16, s.push w =
      .ok { s with STACK := s.STACK.set s.SP.val w, SP := ⟨s.SP.val + 1, by omega⟩ }) ∨
    (s.SP.val = 16 ∧ s.push w = .error (.stackOverflow 16)) := by
  unfold State.push
  split
  · exact .inl ⟨by assumption, rfl⟩
  · have : s.SP.val = 16 := by omega
    exact .inr ⟨this, by rw [this]⟩

/-- All a pop can do. -/
theorem State.popPc_cases (s : State) :
    (∃ h : 0 < s.SP.val, s.popPc =
      .ok { s with SP := ⟨s.SP.val - 1, by omega⟩, pc := s.STACK[s.SP.val - 1]'(by omega) }) ∨
    (s.SP.val = 0 ∧ s.popPc = .error (.stackUnderflow 0)) := by
  unfold State.popPc
  split
  · exact .inl ⟨by assumption, rfl⟩
  · have : s.SP.val = 0 := by omega
    exact .inr ⟨this, by rw [this]⟩

/-! ## Through the index register -/

/-- All an instruction over a block at `I` can do. -/
theorem State.withBlock_cases (s : State) (n : Nat) (f : List Nat → State) :
    (∃ is, s.indexBlock n = .ok is ∧ s.withBlock n f = .ok (f is)) ∨
    (∃ k, s.indexBlock n = .error k ∧ s.withBlock n f = .error k) := by
  unfold State.withBlock
  split
  · exact .inl ⟨_, by assumption, rfl⟩
  · exact .inr ⟨_, by assumption, rfl⟩

theorem State.withBlock_of_ok {s : State} {n : Nat} {is : List Nat} (h : s.indexBlock n = .ok is)
    (f : List Nat → State) : s.withBlock n f = .ok (f is) := by
  simp [State.withBlock, h]

@[simp] theorem State.indexBlock_preExecute (s : State) (n : Nat) : s.preExecute.indexBlock n = s.indexBlock n := rfl

/-- A block load changes registers alone. -/
theorem State.setRegsFrom_eq (k : Nat) (bs : List Byte) (s : State) :
    State.setRegsFrom k bs s = { s with V := (State.setRegsFrom k bs s).V } := by
  induction bs generalizing k s with
  | nil => rfl
  | cons b bs ih =>
    simp only [State.setRegsFrom]
    rw [ih]

/-- What a block load leaves in the registers depends on the registers alone. -/
theorem State.setRegsFrom_congr {s s' : State} (k : Nat) (bs : List Byte) (h : s'.V = s.V) :
    (State.setRegsFrom k bs s').V = (State.setRegsFrom k bs s).V := by
  induction bs generalizing k s s' with
  | nil => exact h
  | cons b bs ih => exact ih (k + 1) (by simp [h])

/-- What every register holds after a block load. -/
theorem State.getV_setRegsFrom (k : Nat) (bs : List Byte) (s : State) (r : Reg) :
    (State.setRegsFrom k bs s).getV r =
      if k ≤ r.val then (bs[r.val - k]?).getD (s.getV r) else s.getV r := by
  induction bs generalizing k s with
  | nil => simp [State.setRegsFrom]
  | cons b bs ih =>
    simp only [State.setRegsFrom]
    rw [ih]
    have hV : ({ s with V := s.V.setIfInBounds k b } : State).getV r = if k = r.val then b else s.getV r := by
      simp only [State.getV]
      rw [Vector.getElem_setIfInBounds]
    rw [hV]
    by_cases h1 : k + 1 ≤ r.val
    · have hd : r.val - k = r.val - (k + 1) + 1 := by omega
      rw [if_pos h1, if_neg (show ¬ k = r.val by omega), if_pos (show k ≤ r.val by omega), hd,
        List.getElem?_cons_succ]
    · rw [if_neg h1]
      by_cases h2 : k = r.val
      · simp [h2]
      · rw [if_neg h2, if_neg (show ¬ k ≤ r.val by omega)]

theorem State.regsBelow_get (s : State) {n : Nat} {r : Reg} (h : r.val < n) :
    (s.regsBelow n)[r.val]? = some (s.getV r) := by
  simp [State.regsBelow, State.getV, h]

end Sys2Proof.Machine
end

