-- ==== Sys2Proof/Laws/Drawing.lean ====
section
/-! SUPPORT. Laws of the display: one cell through a toggle, and what plotting a list of different cells does. -/

namespace Sys2Proof.Machine

theorem Display.lit_toggle_same (d : Display) (c : Fin 64) (r : Fin 32) : (d.toggle c r).lit c r = !d.lit c r := by
  simp [Display.lit, Display.toggle]

theorem Display.lit_toggle_of_ne (d : Display) {c c' : Fin 64} {r r' : Fin 32} (h : (c', r') ≠ (c, r)) :
    (d.toggle c r).lit c' r' = d.lit c' r' := by
  simp only [Display.lit, Display.toggle, Vector.getElem_set]
  split
  · rename_i hc
    have hc : c = c' := Fin.ext hc
    subst hc
    rw [Vector.getElem_set, if_neg]
    intro hr
    exact h (by rw [Fin.ext hr])
  · rfl

@[simp] theorem Display.lit_blank (c : Fin 64) (r : Fin 32) : Display.blank.lit c r = false := by
  simp [Display.lit, Display.blank]

/-- Plotting cells without repeats inverts exactly them. -/
theorem plot_lit {cells : List (Fin 64 × Fin 32)} (hn : cells.Nodup) (d : Display) (hit : Bool) (c : Fin 64)
    (r : Fin 32) : (plot cells d hit).1.lit c r = if (c, r) ∈ cells then !d.lit c r else d.lit c r := by
  induction cells generalizing d hit with
  | nil => simp [plot]
  | cons e cells ih =>
    obtain ⟨hne, hn⟩ := List.nodup_cons.1 hn
    simp only [plot]
    rw [ih hn]
    by_cases h : (c, r) = e
    · subst h
      simp [hne, Display.lit_toggle_same]
    · simp [h, Display.lit_toggle_of_ne _ h]

/-- Plotting cells without repeats hits exactly when one of them was lit. -/
theorem plot_hit {cells : List (Fin 64 × Fin 32)} (hn : cells.Nodup) (d : Display) (hit : Bool) :
    (plot cells d hit).2 = true ↔ hit = true ∨ ∃ e ∈ cells, d.lit e.1 e.2 = true := by
  induction cells generalizing d hit with
  | nil => simp [plot]
  | cons e cells ih =>
    obtain ⟨hne, hn⟩ := List.nodup_cons.1 hn
    simp only [plot]
    rw [ih hn]
    have key : (∃ a ∈ cells, (d.toggle e.1 e.2).lit a.1 a.2 = true) ↔ ∃ a ∈ cells, d.lit a.1 a.2 = true := by
      refine exists_congr fun a => and_congr_right fun ha => ?_
      rw [Display.lit_toggle_of_ne]
      intro h
      exact hne (by rw [← show a = e from h]; exact ha)
    rw [key]
    simp [or_assoc]

/-- A cell one sprite row toggles. -/
theorem mem_spriteRow {px r : Nat} {b : Byte} {e : Fin 64 × Fin 32} :
    e ∈ spriteRow px r b ↔ ∃ j, j < 8 ∧ b.getLsbD (7 - j) = true ∧ wrapCol (px + j) = e.1 ∧ wrapRow r = e.2 := by
  simp [spriteRow, and_assoc, Prod.ext_iff]

/-- A cell a sprite toggles. -/
theorem mem_spriteCells {px py : Nat} {bs : List Byte} {e : Fin 64 × Fin 32} :
    e ∈ spriteCells px py bs ↔ ∃ k b, bs[k]? = some b ∧ e ∈ spriteRow px (py + k) b := by
  induction bs generalizing py with
  | nil => simp [spriteCells]
  | cons b bs ih =>
    simp only [spriteCells, List.mem_append, ih]
    constructor
    · rintro (h | ⟨k, b', hb, h⟩)
      · exact ⟨0, b, rfl, h⟩
      · exact ⟨k + 1, b', by simpa using hb, by rw [← Nat.add_assoc, Nat.add_right_comm]; exact h⟩
    · rintro ⟨k, b', hb, h⟩
      cases k with
      | zero =>
        simp only [List.getElem?_cons_zero, Option.some.injEq] at hb
        exact .inl (hb ▸ h)
      | succ k =>
        exact .inr ⟨k, b', by simpa using hb, by rw [Nat.add_right_comm, Nat.add_assoc]; exact h⟩

theorem spriteRow_nodup (px r : Nat) (b : Byte) : (spriteRow px r b).Nodup := by
  refine List.Nodup.map_on ?_ (List.nodup_range.filter _)
  intro i hi j hj h
  simp only [List.mem_filter, List.mem_range, Prod.mk.injEq, wrapCol, Fin.mk.injEq, and_true] at *
  omega

/-- A sprite of at most 32 rows toggles no cell twice. -/
theorem spriteCells_nodup {bs : List Byte} (px py : Nat) (h : bs.length ≤ 32) : (spriteCells px py bs).Nodup := by
  induction bs generalizing py with
  | nil => simp [spriteCells]
  | cons b bs ih =>
    simp only [spriteCells, List.length_cons] at h ⊢
    refine List.nodup_append.2 ⟨spriteRow_nodup _ _ _, ih (py + 1) (by omega), ?_⟩
    rintro e he _ hf rfl
    obtain ⟨_, -, -, -, h1⟩ := mem_spriteRow.1 he
    obtain ⟨k, b', hb, hf⟩ := mem_spriteCells.1 hf
    obtain ⟨_, -, -, -, h2⟩ := mem_spriteRow.1 hf
    have hk : k < bs.length := (List.getElem?_eq_some_iff.1 hb).1
    have : py % 32 = (py + 1 + k) % 32 := by
      simpa [wrapRow] using congrArg Fin.val (h1.trans h2.symm)
    omega

end Sys2Proof.Machine
end

