-- ==== Sys2Proof/Laws/Exec.lean ====
section
/-! SUPPORT. One equation per meaning that raises nothing: the next state, on `s.preExecute`. -/

namespace Sys2Proof.Machine

@[simp] theorem exec_cls (s : State) :
    exec .cls s = .next { s.preExecute with DISP := Display.blank } := rfl

@[simp] theorem exec_jp (s : State) (nnn : Addr12) :
    exec (.jp nnn) s = .next (s.preExecute.setPc (zextAddr nnn)) := rfl

@[simp] theorem exec_seImm (s : State) (x : Reg) (nn : Byte) :
    exec (.seImm x nn) s = .next (s.preExecute.skipIf (s.getV x == nn)) := rfl

@[simp] theorem exec_sneImm (s : State) (x : Reg) (nn : Byte) :
    exec (.sneImm x nn) s = .next (s.preExecute.skipIf (s.getV x != nn)) := rfl

@[simp] theorem exec_seReg (s : State) (x : Reg) (y : Reg) :
    exec (.seReg x y) s = .next (s.preExecute.skipIf (s.getV x == s.getV y)) := rfl

@[simp] theorem exec_sneReg (s : State) (x : Reg) (y : Reg) :
    exec (.sneReg x y) s = .next (s.preExecute.skipIf (s.getV x != s.getV y)) := rfl

@[simp] theorem exec_ldImm (s : State) (x : Reg) (nn : Byte) :
    exec (.ldImm x nn) s = .next (s.preExecute.setV x nn) := rfl

@[simp] theorem exec_addImm (s : State) (x : Reg) (nn : Byte) :
    exec (.addImm x nn) s = .next (s.preExecute.setV x (addResult (s.getV x) nn)) := rfl

@[simp] theorem exec_ldReg (s : State) (x : Reg) (y : Reg) :
    exec (.ldReg x y) s = .next (s.preExecute.setV x (s.getV y)) := rfl

@[simp] theorem exec_orReg (s : State) (x : Reg) (y : Reg) :
    exec (.orReg x y) s = .next (s.preExecute.setV x (s.getV x ||| s.getV y)) := rfl

@[simp] theorem exec_andReg (s : State) (x : Reg) (y : Reg) :
    exec (.andReg x y) s = .next (s.preExecute.setV x (s.getV x &&& s.getV y)) := rfl

@[simp] theorem exec_xorReg (s : State) (x : Reg) (y : Reg) :
    exec (.xorReg x y) s = .next (s.preExecute.setV x (s.getV x ^^^ s.getV y)) := rfl

@[simp] theorem exec_addReg (s : State) (x : Reg) (y : Reg) :
    exec (.addReg x y) s = .next (s.preExecute.setVWithFlag x (addResult (s.getV x) (s.getV y)) (carryFlag (s.getV x) (s.getV y))) := rfl

@[simp] theorem exec_subReg (s : State) (x : Reg) (y : Reg) :
    exec (.subReg x y) s = .next (s.preExecute.setVWithFlag x (subResult (s.getV x) (s.getV y)) (notBorrowFlag (s.getV x) (s.getV y))) := rfl

@[simp] theorem exec_shrReg (s : State) (x : Reg) (y : Reg) :
    exec (.shrReg x y) s = .next (s.preExecute.setVWithFlag x (shrResult (s.getV y)) (lowBitFlag (s.getV x))) := rfl

@[simp] theorem exec_subnReg (s : State) (x : Reg) (y : Reg) :
    exec (.subnReg x y) s = .next (s.preExecute.setVWithFlag x (subResult (s.getV y) (s.getV x)) (notBorrowFlag (s.getV y) (s.getV x))) := rfl

@[simp] theorem exec_shlReg (s : State) (x : Reg) (y : Reg) :
    exec (.shlReg x y) s = .next (s.preExecute.setVWithFlag x (shlResult (s.getV y)) (highBitFlag (s.getV x))) := rfl

@[simp] theorem exec_ldI (s : State) (nnn : Addr12) :
    exec (.ldI nnn) s = .next (s.preExecute.setI (zextAddr nnn)) := rfl

@[simp] theorem exec_jpV0 (s : State) (nnn : Addr12) :
    exec (.jpV0 nnn) s = .next (s.preExecute.setPc (zextAddr nnn + zextByte (s.getV 0))) := rfl

@[simp] theorem exec_rnd (s : State) (x : Reg) (nn : Byte) :
    exec (.rnd x nn) s = .next (s.preExecute.setV x (rndResult (Config.draw s.draws) nn)) := rfl

@[simp] theorem exec_ldVxDT (s : State) (x : Reg) :
    exec (.ldVxDT x) s = .next (s.preExecute.setV x (countDown s.DT)) := rfl

@[simp] theorem exec_ldDTVx (s : State) (x : Reg) :
    exec (.ldDTVx x) s = .next { s.preExecute with DT := s.getV x } := rfl

@[simp] theorem exec_ldSTVx (s : State) (x : Reg) :
    exec (.ldSTVx x) s = .next { s.preExecute with ST := s.getV x } := rfl

@[simp] theorem exec_addIVx (s : State) (x : Reg) :
    exec (.addIVx x) s = .next (s.preExecute.setI (s.I + zextByte (s.getV x))) := rfl

@[simp] theorem exec_ldFVx (s : State) (x : Reg) :
    exec (.ldFVx x) s = .next (s.preExecute.setI (glyphAddress (glyphNumber s.cfg.fx29Source x (s.getV x)))) := rfl

/-- `Fx0A` with a key pressed. -/
theorem exec_ldVxK_of_some (x : Reg) {s : State} {k : Fin 16} (h : s.lowestKey = some k) :
    exec (.ldVxK x) s = .next (s.preExecute.setV x (BitVec.ofNat 8 k.val)) := by
  have h' : s.preExecute.lowestKey = some k := h
  rw [show exec (.ldVxK x) s = execLdVxK x s from rfl, execLdVxK, complete, h']

/-- `Fx0A` with none: back to the instruction itself. -/
theorem exec_ldVxK_of_none (x : Reg) {s : State} (h : s.lowestKey = none) :
    exec (.ldVxK x) s = .next (s.preExecute.setPc s.pc) := by
  have h' : s.preExecute.lowestKey = none := h
  rw [show exec (.ldVxK x) s = execLdVxK x s from rfl, execLdVxK, complete, h']
  simp

/-- All a `Fx0A` can be. -/
theorem execLdVxK_next {s t : State} {x : Reg} :
    exec (.ldVxK x) s = .next t ↔
      (∃ k, s.lowestKey = some k ∧ t = s.preExecute.setV x (BitVec.ofNat 8 k.val)) ∨
      (s.lowestKey = none ∧ t = s.preExecute.setPc s.pc) := by
  cases h : s.lowestKey with
  | some k => simp [exec_ldVxK_of_some x h, eq_comm]
  | none => simp [exec_ldVxK_of_none x h, eq_comm]

end Sys2Proof.Machine
end

