-- ==== Sys2Proof/Laws/PerInstr.lean ====
section
/-! SUPPORT. Per-instruction families (LAWS.json). `EncodeValue`: the word of an instruction as a number, the match of its
row (30_encoding R58) plus its operand fields. -/

namespace Sys2Proof.Laws

/-- The row's match plus the operand fields. -/
def wordNumber : Instr → Nat
  | .cls => 0x00E0
  | .ret => 0x00EE
  | .sys nnn => 0x0000 + nnn.toNat
  | .jp nnn => 0x1000 + nnn.toNat
  | .call nnn => 0x2000 + nnn.toNat
  | .seImm x nn => 0x3000 + 0x100 * x.val + nn.toNat
  | .sneImm x nn => 0x4000 + 0x100 * x.val + nn.toNat
  | .seReg x y => 0x5000 + 0x100 * x.val + 0x10 * y.val
  | .ldImm x nn => 0x6000 + 0x100 * x.val + nn.toNat
  | .addImm x nn => 0x7000 + 0x100 * x.val + nn.toNat
  | .ldReg x y => 0x8000 + 0x100 * x.val + 0x10 * y.val
  | .orReg x y => 0x8001 + 0x100 * x.val + 0x10 * y.val
  | .andReg x y => 0x8002 + 0x100 * x.val + 0x10 * y.val
  | .xorReg x y => 0x8003 + 0x100 * x.val + 0x10 * y.val
  | .addReg x y => 0x8004 + 0x100 * x.val + 0x10 * y.val
  | .subReg x y => 0x8005 + 0x100 * x.val + 0x10 * y.val
  | .shrReg x y => 0x8006 + 0x100 * x.val + 0x10 * y.val
  | .subnReg x y => 0x8007 + 0x100 * x.val + 0x10 * y.val
  | .shlReg x y => 0x800E + 0x100 * x.val + 0x10 * y.val
  | .sneReg x y => 0x9000 + 0x100 * x.val + 0x10 * y.val
  | .ldI nnn => 0xA000 + nnn.toNat
  | .jpV0 nnn => 0xB000 + nnn.toNat
  | .rnd x nn => 0xC000 + 0x100 * x.val + nn.toNat
  | .drw x y n => 0xD000 + 0x100 * x.val + 0x10 * y.val + n.val
  | .skp x => 0xE09E + 0x100 * x.val
  | .sknp x => 0xE0A1 + 0x100 * x.val
  | .ldVxDT x => 0xF007 + 0x100 * x.val
  | .ldVxK x => 0xF00A + 0x100 * x.val
  | .ldDTVx x => 0xF015 + 0x100 * x.val
  | .ldSTVx x => 0xF018 + 0x100 * x.val
  | .addIVx x => 0xF01E + 0x100 * x.val
  | .ldFVx x => 0xF029 + 0x100 * x.val
  | .ldBVx x => 0xF033 + 0x100 * x.val
  | .storeRegs x => 0xF055 + 0x100 * x.val
  | .loadRegs x => 0xF065 + 0x100 * x.val

/-- The family: `encode` gives that number. -/
def EncodeValue.Statement (i : Instr) : Prop := (encode i).toNat = wordNumber i

theorem EncodeValue.cls : EncodeValue.Statement (.cls) := by
  rfl

theorem EncodeValue.ret : EncodeValue.Statement (.ret) := by
  rfl

theorem EncodeValue.sys (nnn : Addr12) : EncodeValue.Statement (.sys nnn) := by
  rw [EncodeValue.Statement, encode, formatNNN_toNat]
  simp [wordNumber]

theorem EncodeValue.jp (nnn : Addr12) : EncodeValue.Statement (.jp nnn) := by
  rw [EncodeValue.Statement, encode, formatNNN_toNat]
  simp [wordNumber]

theorem EncodeValue.call (nnn : Addr12) : EncodeValue.Statement (.call nnn) := by
  rw [EncodeValue.Statement, encode, formatNNN_toNat]
  simp [wordNumber]

theorem EncodeValue.seImm (x : Reg) (nn : Byte) : EncodeValue.Statement (.seImm x nn) := by
  rw [EncodeValue.Statement, encode, formatXNN_toNat]
  simp [wordNumber]
  omega

theorem EncodeValue.sneImm (x : Reg) (nn : Byte) : EncodeValue.Statement (.sneImm x nn) := by
  rw [EncodeValue.Statement, encode, formatXNN_toNat]
  simp [wordNumber]
  omega

theorem EncodeValue.seReg (x y : Reg) : EncodeValue.Statement (.seReg x y) := by
  rw [EncodeValue.Statement, encode, formatXYD_toNat]
  simp [wordNumber]
  omega

theorem EncodeValue.ldImm (x : Reg) (nn : Byte) : EncodeValue.Statement (.ldImm x nn) := by
  rw [EncodeValue.Statement, encode, formatXNN_toNat]
  simp [wordNumber]
  omega

theorem EncodeValue.addImm (x : Reg) (nn : Byte) : EncodeValue.Statement (.addImm x nn) := by
  rw [EncodeValue.Statement, encode, formatXNN_toNat]
  simp [wordNumber]
  omega

theorem EncodeValue.ldReg (x y : Reg) : EncodeValue.Statement (.ldReg x y) := by
  rw [EncodeValue.Statement, encode, formatXYD_toNat]
  simp [wordNumber]
  omega

theorem EncodeValue.orReg (x y : Reg) : EncodeValue.Statement (.orReg x y) := by
  rw [EncodeValue.Statement, encode, formatXYD_toNat]
  simp [wordNumber]
  omega

theorem EncodeValue.andReg (x y : Reg) : EncodeValue.Statement (.andReg x y) := by
  rw [EncodeValue.Statement, encode, formatXYD_toNat]
  simp [wordNumber]
  omega

theorem EncodeValue.xorReg (x y : Reg) : EncodeValue.Statement (.xorReg x y) := by
  rw [EncodeValue.Statement, encode, formatXYD_toNat]
  simp [wordNumber]
  omega

theorem EncodeValue.addReg (x y : Reg) : EncodeValue.Statement (.addReg x y) := by
  rw [EncodeValue.Statement, encode, formatXYD_toNat]
  simp [wordNumber]
  omega

theorem EncodeValue.subReg (x y : Reg) : EncodeValue.Statement (.subReg x y) := by
  rw [EncodeValue.Statement, encode, formatXYD_toNat]
  simp [wordNumber]
  omega

theorem EncodeValue.shrReg (x y : Reg) : EncodeValue.Statement (.shrReg x y) := by
  rw [EncodeValue.Statement, encode, formatXYD_toNat]
  simp [wordNumber]
  omega

theorem EncodeValue.subnReg (x y : Reg) : EncodeValue.Statement (.subnReg x y) := by
  rw [EncodeValue.Statement, encode, formatXYD_toNat]
  simp [wordNumber]
  omega

theorem EncodeValue.shlReg (x y : Reg) : EncodeValue.Statement (.shlReg x y) := by
  rw [EncodeValue.Statement, encode, formatXYD_toNat]
  simp [wordNumber]
  omega

theorem EncodeValue.sneReg (x y : Reg) : EncodeValue.Statement (.sneReg x y) := by
  rw [EncodeValue.Statement, encode, formatXYD_toNat]
  simp [wordNumber]
  omega

theorem EncodeValue.ldI (nnn : Addr12) : EncodeValue.Statement (.ldI nnn) := by
  rw [EncodeValue.Statement, encode, formatNNN_toNat]
  simp [wordNumber]

theorem EncodeValue.jpV0 (nnn : Addr12) : EncodeValue.Statement (.jpV0 nnn) := by
  rw [EncodeValue.Statement, encode, formatNNN_toNat]
  simp [wordNumber]

theorem EncodeValue.rnd (x : Reg) (nn : Byte) : EncodeValue.Statement (.rnd x nn) := by
  rw [EncodeValue.Statement, encode, formatXNN_toNat]
  simp [wordNumber]
  omega

theorem EncodeValue.drw (x y : Reg) (n : Count) : EncodeValue.Statement (.drw x y n) := by
  rw [EncodeValue.Statement, encode, formatXYD_toNat]
  simp [wordNumber]
  omega

theorem EncodeValue.skp (x : Reg) : EncodeValue.Statement (.skp x) := by
  rw [EncodeValue.Statement, encode, formatXNN_toNat]
  simp [wordNumber]
  omega

theorem EncodeValue.sknp (x : Reg) : EncodeValue.Statement (.sknp x) := by
  rw [EncodeValue.Statement, encode, formatXNN_toNat]
  simp [wordNumber]
  omega

theorem EncodeValue.ldVxDT (x : Reg) : EncodeValue.Statement (.ldVxDT x) := by
  rw [EncodeValue.Statement, encode, formatXNN_toNat]
  simp [wordNumber]
  omega

theorem EncodeValue.ldVxK (x : Reg) : EncodeValue.Statement (.ldVxK x) := by
  rw [EncodeValue.Statement, encode, formatXNN_toNat]
  simp [wordNumber]
  omega

theorem EncodeValue.ldDTVx (x : Reg) : EncodeValue.Statement (.ldDTVx x) := by
  rw [EncodeValue.Statement, encode, formatXNN_toNat]
  simp [wordNumber]
  omega

theorem EncodeValue.ldSTVx (x : Reg) : EncodeValue.Statement (.ldSTVx x) := by
  rw [EncodeValue.Statement, encode, formatXNN_toNat]
  simp [wordNumber]
  omega

theorem EncodeValue.addIVx (x : Reg) : EncodeValue.Statement (.addIVx x) := by
  rw [EncodeValue.Statement, encode, formatXNN_toNat]
  simp [wordNumber]
  omega

theorem EncodeValue.ldFVx (x : Reg) : EncodeValue.Statement (.ldFVx x) := by
  rw [EncodeValue.Statement, encode, formatXNN_toNat]
  simp [wordNumber]
  omega

theorem EncodeValue.ldBVx (x : Reg) : EncodeValue.Statement (.ldBVx x) := by
  rw [EncodeValue.Statement, encode, formatXNN_toNat]
  simp [wordNumber]
  omega

theorem EncodeValue.storeRegs (x : Reg) : EncodeValue.Statement (.storeRegs x) := by
  rw [EncodeValue.Statement, encode, formatXNN_toNat]
  simp [wordNumber]
  omega

theorem EncodeValue.loadRegs (x : Reg) : EncodeValue.Statement (.loadRegs x) := by
  rw [EncodeValue.Statement, encode, formatXNN_toNat]
  simp [wordNumber]
  omega

end Sys2Proof.Laws
end

