-- ==== Sys2Proof/Laws/Step.lean ====
section
/-! SUPPORT. Fetch and step: what a fetch can give, and all a step that answers a next state can be. -/

namespace Sys2Proof.Machine

/-! ## Fetch -/

/-- The fetched word of two translated addresses. -/
theorem State.fetch_of_translate {s : State} {a b : Nat} (ha : translateAddr s.cfg.addrPolicy s.pc.toNat = .ok a)
    (hb : translateAddr s.cfg.addrPolicy (s.pc.toNat + 1) = .ok b) :
    s.fetch = .ok (wordOfBytes (s.peek a) (s.peek b)) := by
  simp [State.fetch, State.memRead2, State.memRead, ha, hb]

/-- The fetched word depends on `pc`, memory and the parameters alone. -/
theorem State.fetch_congr {s s' : State} (hp : s'.pc = s.pc) (hm : s'.MEM = s.MEM) (hc : s'.cfg = s.cfg) :
    s'.fetch = s.fetch := by
  simp [State.fetch, State.memRead2, State.memRead, State.peek, hp, hm, hc]

/-- A fetch under `ADDR_POLICY = Fault` at 0xFFF or above faults at its lowest address outside memory. -/
theorem State.fetch_outside {s : State} (h : s.cfg.addrPolicy = .fault) (hp : 4095 ≤ s.pc.toNat) :
    s.fetch = .error (.memoryOutOfRange (max s.pc.toNat 4096)) := by
  simp only [State.fetch, State.memRead2, State.memRead, h]
  by_cases h' : s.pc.toNat < 4096
  · have : s.pc.toNat = 4095 := by omega
    simp [this, translateAddr, memSize]
  · simp [translateAddr, memSize, h', Nat.max_eq_left (Nat.le_of_not_lt h')]

/-- A fetch that gives a word has both its addresses in memory, or wraps. -/
theorem State.fetch_ok {s : State} {w : Word} (h : s.fetch = .ok w) :
    ∃ a b, translateAddr s.cfg.addrPolicy s.pc.toNat = .ok a ∧
      translateAddr s.cfg.addrPolicy (s.pc.toNat + 1) = .ok b ∧ w = wordOfBytes (s.peek a) (s.peek b) := by
  simp only [State.fetch, State.memRead2, State.memRead] at h
  cases ha : translateAddr s.cfg.addrPolicy s.pc.toNat with
  | error k => simp [ha] at h
  | ok a =>
    cases hb : translateAddr s.cfg.addrPolicy (s.pc.toNat + 1) with
    | error k => simp [ha, hb] at h
    | ok b =>
      simp only [ha, hb, Except.ok.injEq] at h
      exact ⟨a, b, rfl, rfl, h.symm⟩

/-- What a fetch that faults says. -/
theorem State.fetch_error {s : State} {k : FaultKind} (h : s.fetch = .error k) :
    s.cfg.addrPolicy = .fault ∧ 4095 ≤ s.pc.toNat ∧ k = .memoryOutOfRange (max s.pc.toNat 4096) := by
  have hp : s.cfg.addrPolicy = .fault ∧ 4095 ≤ s.pc.toNat := by
    cases ha : translateAddr s.cfg.addrPolicy s.pc.toNat with
    | error e =>
      obtain ⟨hp, hge, -⟩ := translateAddr_error ha
      simp only [memSize] at hge
      exact ⟨hp, by omega⟩
    | ok a =>
      cases hb : translateAddr s.cfg.addrPolicy (s.pc.toNat + 1) with
      | error e =>
        obtain ⟨hp, hge, -⟩ := translateAddr_error hb
        simp only [memSize] at hge
        exact ⟨hp, by omega⟩
      | ok b => simp [State.fetch_of_translate ha hb] at h
  refine ⟨hp.1, hp.2, ?_⟩
  rw [State.fetch_outside hp.1 hp.2] at h
  exact (Except.error.inj h).symm

/-! ## Step -/

/-- All a step that answers a next state can be: a fetch fault, an instruction, or the fallback no-op. -/
theorem step_next_cases {s t : State} (h : step s = .next t) :
    s.FAULT = none ∧
      ((∃ k, s.fetch = .error k ∧ t = s.latchFault k none) ∨
        (∃ w i, s.fetch = .ok w ∧ decode w = .ok i ∧ exec i s = .next t) ∨
        (∃ w e, s.fetch = .ok w ∧ decode w = .error e ∧ t = s.preExecute)) := by
  unfold step engineStep at h
  split at h
  · simp at h
  · rename_i hF
    refine ⟨hF, ?_⟩
    unfold runFetched at h
    split at h
    · rename_i w hw
      unfold runWord at h
      split at h
      · exact .inr (.inl ⟨w, _, hw, by assumption, h⟩)
      · exact .inr (.inr ⟨w, _, hw, by assumption, complete_next.1 h⟩)
    · rename_i k hk
      exact .inl ⟨k, hk, (Host.Outcome.next.inj h).symm⟩

/-- The step of a core that is not halted and whose fetch gives the word of `i`. -/
theorem step_of_fetch_decode {s : State} {w : Word} {i : Instr} (hF : s.FAULT = none) (hw : s.fetch = .ok w)
    (hd : decode w = .ok i) : step s = exec i s := by
  simp [step, engineStep, hF, runFetched, hw, runWord, hd]

/-- The step of a halted core. -/
theorem step_halted {s : State} {r : FaultRecord} (h : s.FAULT = some r) : step s = .fault (.halted r) := by
  simp [step, engineStep, h]

/-! ## The meanings with the stack -/

/-- All a call can be. -/
theorem execCall_next {s t : State} {nnn : Addr12} :
    exec (.call nnn) s = .next t ↔
      (∃ h : s.SP.val < 16, t = { s.preExecute with
        STACK := s.STACK.set s.SP.val (s.pc + 2#16), SP := ⟨s.SP.val + 1, by omega⟩, pc := zextAddr nnn }) ∨
      (s.SP.val = 16 ∧ t = s.latchFault (.stackOverflow 16) (some (encode (.call nnn)))) := by
  rw [show exec (.call nnn) s = execCall nnn s from rfl, execCall, runPhase_next]
  rcases s.preExecute.push_cases s.preExecute.pc with ⟨h, e⟩ | ⟨h, e⟩
  · rw [e]
    simp only [State.preExecute_SP] at h
    simp only [State.setPc, Except.ok.injEq, reduceCtorEq, false_and, exists_false, or_false]
    have : s.SP.val ≠ 16 := by omega
    simp only [this, false_and, or_false]
    exact ⟨fun ht => ⟨h, ht.symm⟩, fun ⟨_, ht⟩ => ht.symm⟩
  · rw [e]
    simp only [State.preExecute_SP] at h
    dsimp only
    constructor
    · rintro (ht | ⟨k, hk, rfl⟩)
      · cases ht
      · cases hk
        exact .inr ⟨h, rfl⟩
    · rintro (⟨hlt, -⟩ | ⟨-, rfl⟩)
      · omega
      · exact .inr ⟨_, rfl, rfl⟩

/-- All a return can be. -/
theorem execRet_next {s t : State} :
    exec .ret s = .next t ↔
      (∃ h : 0 < s.SP.val, t = { s.preExecute with
        SP := ⟨s.SP.val - 1, by omega⟩, pc := s.STACK[s.SP.val - 1]'(by omega) }) ∨
      (s.SP.val = 0 ∧ t = s.latchFault (.stackUnderflow 0) (some (encode .ret))) := by
  rw [show exec .ret s = execRet s from rfl, execRet, runPhase_next]
  rcases s.preExecute.popPc_cases with ⟨h, e⟩ | ⟨h, e⟩
  · rw [e]
    simp only [State.preExecute_SP] at h
    simp only [Except.ok.injEq, reduceCtorEq, false_and, exists_false, or_false]
    have : s.SP.val ≠ 0 := by omega
    simp only [this, false_and, or_false]
    exact ⟨fun ht => ⟨h, ht.symm⟩, fun ⟨_, ht⟩ => ht.symm⟩
  · rw [e]
    simp only [State.preExecute_SP] at h
    constructor
    · rintro (ht | ⟨k, hk, rfl⟩)
      · cases ht
      · cases hk
        exact .inr ⟨h, rfl⟩
    · rintro (⟨hlt, -⟩ | ⟨-, rfl⟩)
      · omega
      · exact .inr ⟨_, rfl, rfl⟩

/-- All an instruction over a block at `I` can be. -/
theorem runBlock_next {s t : State} {i : Instr} {n : Nat} {f : State → List Nat → State} :
    runPhase s i (fun u => u.withBlock n (f u)) = .next t ↔
      (∃ is, s.indexBlock n = .ok is ∧ t = f s.preExecute is) ∨
      (∃ k, s.indexBlock n = .error k ∧ t = s.latchFault k (some (encode i))) := by
  rw [runPhase_next]
  rcases s.preExecute.withBlock_cases n (f s.preExecute) with ⟨is, h, e⟩ | ⟨k, h, e⟩ <;>
    · rw [State.indexBlock_preExecute] at h
      simp [e, h, eq_comm]

/-- All a key skip can be. -/
theorem runKey_next {s t : State} {i : Instr} {x : Reg} {down : Bool} :
    runPhase s i (fun u => u.skipOnKey (u.getV x) down) = .next t ↔
      (∃ k, keyNumber s.cfg.keyIndexPolicy (s.getV x) = .ok k ∧
        t = s.preExecute.skipIf (s.keyDown k == down)) ∨
      (∃ e, keyNumber s.cfg.keyIndexPolicy (s.getV x) = .error e ∧ t = s.latchFault e (some (encode i))) := by
  rw [runPhase_next]
  simp only [State.skipOnKey, State.preExecute_cfg, State.getV_preExecute, State.keyDown_preExecute]
  cases keyNumber s.cfg.keyIndexPolicy (s.getV x) <;> simp [eq_comm]

/-! ## The meanings over a block at `I`, and the key skips -/

theorem execDrw_next {s t : State} {x y : Reg} {n : Count} :
    exec (.drw x y n) s = .next t ↔
      (∃ is, s.indexBlock n.val = .ok is ∧
        t = s.preExecute.drawSprite (s.getV x).toNat (s.getV y).toNat (is.map s.preExecute.peek)) ∨
      (∃ k, s.indexBlock n.val = .error k ∧ t = s.latchFault k (some (encode (.drw x y n)))) :=
  runBlock_next (f := fun u is => u.drawSprite (u.getV x).toNat (u.getV y).toNat (is.map u.peek))

theorem execLdBVx_next {s t : State} {x : Reg} :
    exec (.ldBVx x) s = .next t ↔
      (∃ is, s.indexBlock 3 = .ok is ∧ t = State.pokeAll is (decimalDigits (s.getV x)) s.preExecute) ∨
      (∃ k, s.indexBlock 3 = .error k ∧ t = s.latchFault k (some (encode (.ldBVx x)))) :=
  runBlock_next (f := fun u is => State.pokeAll is (decimalDigits (u.getV x)) u)

theorem execStoreRegs_next {s t : State} {x : Reg} :
    exec (.storeRegs x) s = .next t ↔
      (∃ is, s.indexBlock (x.val + 1) = .ok is ∧
        t = (State.pokeAll is (s.regsBelow (x.val + 1)) s.preExecute).bumpI x) ∨
      (∃ k, s.indexBlock (x.val + 1) = .error k ∧ t = s.latchFault k (some (encode (.storeRegs x)))) :=
  runBlock_next (f := fun u is => (State.pokeAll is (u.regsBelow (x.val + 1)) u).bumpI x)

theorem execLoadRegs_next {s t : State} {x : Reg} :
    exec (.loadRegs x) s = .next t ↔
      (∃ is, s.indexBlock (x.val + 1) = .ok is ∧
        t = (State.setRegsFrom 0 (is.map s.preExecute.peek) s.preExecute).bumpI x) ∨
      (∃ k, s.indexBlock (x.val + 1) = .error k ∧ t = s.latchFault k (some (encode (.loadRegs x)))) :=
  runBlock_next (f := fun u is => (State.setRegsFrom 0 (is.map u.peek) u).bumpI x)

theorem execSkp_next {s t : State} {x : Reg} :
    exec (.skp x) s = .next t ↔
      (∃ k, keyNumber s.cfg.keyIndexPolicy (s.getV x) = .ok k ∧ t = s.preExecute.skipIf (s.keyDown k == true)) ∨
      (∃ e, keyNumber s.cfg.keyIndexPolicy (s.getV x) = .error e ∧ t = s.latchFault e (some (encode (.skp x)))) :=
  runKey_next

theorem execSknp_next {s t : State} {x : Reg} :
    exec (.sknp x) s = .next t ↔
      (∃ k, keyNumber s.cfg.keyIndexPolicy (s.getV x) = .ok k ∧ t = s.preExecute.skipIf (s.keyDown k == false)) ∨
      (∃ e, keyNumber s.cfg.keyIndexPolicy (s.getV x) = .error e ∧ t = s.latchFault e (some (encode (.sknp x)))) :=
  runKey_next

/-- The one meaning that is its fault entry. -/
theorem execSys_next {s t : State} {nnn : Addr12} :
    exec (.sys nnn) s = .next t ↔ t = s.latchFault .unsupportedInstruction (some (encode (.sys nnn))) := by
  rw [show exec (.sys nnn) s = execSys nnn s from rfl, execSys, runPhase_next]
  simp

end Sys2Proof.Machine
end

