-- ==== Sys2Proof/Tests/Slice0.lean ====
section
/-! SUPPORT. The model's own tests: the well-formedness smoke, one word of every instruction written out from its
format (30_encoding R56, R58), single steps from 95_test_vectors, and a witness for every statement with hypotheses. -/

namespace Sys2Proof.Machine

/-! ## Small states -/

/-- After reset, with `pc` at `a` and the word `w` stored there. -/
def placed (a : Word) (w : Nat) : State := ({ State.reset with pc := a } : State).withFetchWord 16 w

def State.withRegs (rs : List (Reg × Byte)) (s : State) : State := rs.foldl (fun u r => u.setV r.1 r.2) s

def State.withI (a : Word) (s : State) : State := { s with I := a }

def State.withSP (n : Fin 17) (s : State) : State := { s with SP := n }

def State.withSlot (k : Fin 16) (w : Word) (s : State) : State := { s with STACK := s.STACK.set k.val w }

def State.withTimers (d t : Byte) (s : State) : State := { s with DT := d, ST := t }

def State.withParameters (c : Config) (s : State) : State := { s with cfg := c }

def State.lightCell (c : Fin 64) (r : Fin 32) (s : State) : State := { s with DISP := s.DISP.toggle c r }

def State.pressing (ks : List (Fin 16)) (s : State) : State :=
  { s with KEY := ks.foldl (fun v k => v.set k.val true) s.KEY }

end Sys2Proof.Machine

namespace Sys2Proof.Tests

open Sys2Proof Sys2Proof.Machine

/-! ## Well-formedness -/

theorem test_wellFormed_sys_not_cls : (Instr.sys 0x0E0#12).wellFormed = false := by decide

theorem test_wellFormed_sys_not_ret : (Instr.sys 0x0EE#12).wellFormed = false := by decide

theorem test_wellFormed_sys_other : (Instr.sys 0x0EF#12).wellFormed = true := by decide

/-! ## Decoding: the words are the formats' bits, high nibble first -/

theorem test_decode_cls : decode 0b0000_0000_1110_0000#16 = .ok (.cls) := rfl
theorem test_decode_ret : decode 0b0000_0000_1110_1110#16 = .ok (.ret) := rfl
theorem test_decode_sys : decode 0b0000_0001_0010_0011#16 = .ok (.sys 0x123#12) := rfl
theorem test_decode_jp : decode 0b0001_0010_0011_0100#16 = .ok (.jp 0x234#12) := rfl
theorem test_decode_call : decode 0b0010_0011_0000_0000#16 = .ok (.call 0x300#12) := rfl
theorem test_decode_seImm : decode 0b0011_0011_0001_0000#16 = .ok (.seImm 3 0x10#8) := rfl
theorem test_decode_sneImm : decode 0b0100_0011_0001_0001#16 = .ok (.sneImm 3 0x11#8) := rfl
theorem test_decode_seReg : decode 0b0101_0001_0010_0000#16 = .ok (.seReg 1 2) := rfl
theorem test_decode_ldImm : decode 0b0110_1010_0111_1111#16 = .ok (.ldImm 10 0x7F#8) := rfl
theorem test_decode_addImm : decode 0b0111_0010_0010_0000#16 = .ok (.addImm 2 0x20#8) := rfl
theorem test_decode_ldReg : decode 0b1000_0001_0101_0000#16 = .ok (.ldReg 1 5) := rfl
theorem test_decode_orReg : decode 0b1000_0001_0010_0001#16 = .ok (.orReg 1 2) := rfl
theorem test_decode_andReg : decode 0b1000_0001_0010_0010#16 = .ok (.andReg 1 2) := rfl
theorem test_decode_xorReg : decode 0b1000_0001_0010_0011#16 = .ok (.xorReg 1 2) := rfl
theorem test_decode_addReg : decode 0b1000_0001_0010_0100#16 = .ok (.addReg 1 2) := rfl
theorem test_decode_subReg : decode 0b1000_0001_0010_0101#16 = .ok (.subReg 1 2) := rfl
theorem test_decode_shrReg : decode 0b1000_0001_0010_0110#16 = .ok (.shrReg 1 2) := rfl
theorem test_decode_subnReg : decode 0b1000_0001_0010_0111#16 = .ok (.subnReg 1 2) := rfl
theorem test_decode_shlReg : decode 0b1000_0001_0010_1110#16 = .ok (.shlReg 1 2) := rfl
theorem test_decode_sneReg : decode 0b1001_0001_0010_0000#16 = .ok (.sneReg 1 2) := rfl
theorem test_decode_ldI : decode 0b1010_0010_1111_0000#16 = .ok (.ldI 0x2F0#12) := rfl
theorem test_decode_jpV0 : decode 0b1011_0011_0000_0000#16 = .ok (.jpV0 0x300#12) := rfl
theorem test_decode_rnd : decode 0b1100_0011_0000_1111#16 = .ok (.rnd 3 0x0F#8) := rfl
theorem test_decode_drw : decode 0b1101_0001_0010_0101#16 = .ok (.drw 1 2 5) := rfl
theorem test_decode_skp : decode 0b1110_0010_1001_1110#16 = .ok (.skp 2) := rfl
theorem test_decode_sknp : decode 0b1110_0010_1010_0001#16 = .ok (.sknp 2) := rfl
theorem test_decode_ldVxDT : decode 0b1111_0011_0000_0111#16 = .ok (.ldVxDT 3) := rfl
theorem test_decode_ldVxK : decode 0b1111_0011_0000_1010#16 = .ok (.ldVxK 3) := rfl
theorem test_decode_ldDTVx : decode 0b1111_0001_0001_0101#16 = .ok (.ldDTVx 1) := rfl
theorem test_decode_ldSTVx : decode 0b1111_0001_0001_1000#16 = .ok (.ldSTVx 1) := rfl
theorem test_decode_addIVx : decode 0b1111_0100_0001_1110#16 = .ok (.addIVx 4) := rfl
theorem test_decode_ldFVx : decode 0b1111_0101_0010_1001#16 = .ok (.ldFVx 5) := rfl
theorem test_decode_ldBVx : decode 0b1111_0111_0011_0011#16 = .ok (.ldBVx 7) := rfl
theorem test_decode_storeRegs : decode 0b1111_0010_0101_0101#16 = .ok (.storeRegs 2) := rfl
theorem test_decode_loadRegs : decode 0b1111_0010_0110_0101#16 = .ok (.loadRegs 2) := rfl

theorem test_decode_unrecognized : decode 0b0101_0001_0010_0001#16 = .error (.unrecognized 0x5121#16) := rfl

theorem test_decodeTableWord_none : decodeTableWord 16 0x8008 = none := by decide

/-- What `f` sees of the next state. -/
def seen {α : Type} (f : State → α) (s : State) : Option α :=
  match step s with
  | .next t => some (f t)
  | .fault _ => none
  | .refused _ => none

/-! ## Single steps -/

/-- V-DI1. -/
theorem test_cls :
    seen (fun t => (t.pc, t.DISP.lit 0 0, t.DISP.lit 63 31, t.getV 15)) ((((placed 0x200 0x00E0).lightCell 0 0).lightCell 63 31).withRegs [(15, 0x01)]) =
      some (0x202, false, false, 0x01) := by decide

/-- V-CF7. -/
theorem test_ret :
    seen (fun t => (t.pc, t.SP, t.STACK[0], t.FAULT)) (((placed 0x30A 0x00EE).withSlot 0 0x204).withSP 1) =
      some (0x204, 0, 0x204, none) := by decide

/-- V-CF8. -/
theorem test_ret_empty :
    seen (fun t => (t.pc, t.FAULT)) (placed 0x30A 0x00EE) =
      some (0x30A, some ⟨.stackUnderflow 0, some 0x00EE, 0x30A⟩) := by decide

/-- V-CF12. -/
theorem test_sys :
    seen (fun t => (t.pc, t.DISP.lit 0 0, t.FAULT)) ((placed 0x200 0x01E0).lightCell 0 0) =
      some (0x200, true, some ⟨.unsupportedInstruction, some 0x01E0, 0x200⟩) := by decide

/-- V-CF11. -/
theorem test_sys_zero :
    seen (fun t => t.FAULT) (placed 0x200 0x0000) =
      some (some ⟨.unsupportedInstruction, some 0x0000, 0x200⟩) := by decide

/-- V-CF2. -/
theorem test_jp :
    seen (fun t => t.pc) (placed 0x200 0x1FFF) =
      some (0xFFF) := by decide

/-- V-CF5. -/
theorem test_call :
    seen (fun t => (t.pc, t.SP, t.STACK[15])) ((placed 0x202 0x2300).withSP 15) =
      some (0x300, 16, 0x204) := by decide

/-- V-CF6. -/
theorem test_call_full :
    seen (fun t => (t.pc, t.DT, t.FAULT)) (((placed 0x202 0x2300).withSP 16).withTimers 9 0) =
      some (0x202, 9, some ⟨.stackOverflow 16, some 0x2300, 0x202⟩) := by decide

/-- V-CF14. -/
theorem test_seImm :
    seen (fun t => t.pc) ((placed 0x200 0x3310).withRegs [(3, 0x10)]) =
      some (0x204) := by decide

/-- V-CF15. -/
theorem test_seImm_not :
    seen (fun t => t.pc) ((placed 0x200 0x3311).withRegs [(3, 0x10)]) =
      some (0x202) := by decide

/-- V-CF16. -/
theorem test_sneImm :
    seen (fun t => t.pc) ((placed 0x200 0x4311).withRegs [(3, 0x10)]) =
      some (0x204) := by decide

/-- V-CF17. -/
theorem test_sneImm_not :
    seen (fun t => t.pc) ((placed 0x200 0x4310).withRegs [(3, 0x10)]) =
      some (0x202) := by decide

/-- V-CF18. -/
theorem test_seReg :
    seen (fun t => t.pc) ((placed 0x200 0x5120).withRegs [(1, 0x07), (2, 0x07)]) =
      some (0x204) := by decide

/-- V-CF19. -/
theorem test_seReg_not :
    seen (fun t => t.pc) ((placed 0x200 0x5120).withRegs [(1, 0x07), (2, 0x08)]) =
      some (0x202) := by decide

/-- V-CF21. -/
theorem test_sneReg :
    seen (fun t => t.pc) ((placed 0x200 0x9120).withRegs [(1, 0x07), (2, 0x08)]) =
      some (0x204) := by decide

/-- V-CF22. -/
theorem test_sneReg_not :
    seen (fun t => t.pc) ((placed 0x200 0x9120).withRegs [(1, 0x07), (2, 0x07)]) =
      some (0x202) := by decide

/-- V-CF25. -/
theorem test_jpV0 :
    seen (fun t => t.pc) ((placed 0x200 0xBFFF).withRegs [(0, 0xFF)]) =
      some (0x10FE) := by decide

/-- V-CF26. -/
theorem test_jpV0_not_V1 :
    seen (fun t => t.pc) ((placed 0x200 0xB123).withRegs [(1, 0x50)]) =
      some (0x123) := by decide

/-- V-CY1. -/
theorem test_ldImm :
    seen (fun t => (t.pc, t.getV 0, t.DT)) ((placed 0x200 0x602A).withTimers 3 0) =
      some (0x202, 0x2A, 2) := by decide

/-- V-AL3. -/
theorem test_addImm :
    seen (fun t => (t.getV 2, t.getV 15)) ((placed 0x200 0x7220).withRegs [(2, 0xF0), (15, 0x55)]) =
      some (0x10, 0x55) := by decide

/-- V-AL5. -/
theorem test_ldReg :
    seen (fun t => (t.getV 1, t.getV 5)) ((placed 0x200 0x8150).withRegs [(5, 0x33)]) =
      some (0x33, 0x33) := by decide

/-- V-AL6. -/
theorem test_orReg :
    seen (fun t => (t.getV 1, t.getV 15)) ((placed 0x200 0x8121).withRegs [(1, 0x0F), (2, 0xF0), (15, 0x55)]) =
      some (0xFF, 0x55) := by decide

/-- V-AL7. -/
theorem test_andReg :
    seen (fun t => t.getV 1) ((placed 0x200 0x8122).withRegs [(1, 0x3C), (2, 0x0F)]) =
      some (0x0C) := by decide

/-- V-AL8. -/
theorem test_xorReg :
    seen (fun t => t.getV 1) ((placed 0x200 0x8123).withRegs [(1, 0x3C), (2, 0x0F)]) =
      some (0x33) := by decide

/-- V-AL10 (source S3). -/
theorem test_addReg :
    seen (fun t => (t.getV 1, t.getV 15)) ((placed 0x200 0x8124).withRegs [(1, 0xFF), (2, 0x02)]) =
      some (0x01, 0x01) := by decide

/-- V-AL14. -/
theorem test_addReg_into_VF :
    seen (fun t => t.getV 15) ((placed 0x200 0x8F14).withRegs [(15, 0x10), (1, 0x20)]) =
      some (0x00) := by decide

/-- V-AL16 (source S4). -/
theorem test_subReg :
    seen (fun t => (t.getV 1, t.getV 15)) ((placed 0x200 0x8125).withRegs [(1, 0x01), (2, 0x02)]) =
      some (0xFF, 0x00) := by decide

/-- V-AL18. -/
theorem test_subReg_equal :
    seen (fun t => (t.getV 1, t.getV 15)) ((placed 0x200 0x8125).withRegs [(1, 0x05), (2, 0x05)]) =
      some (0x00, 0x01) := by decide

/-- V-AL22. -/
theorem test_shrReg :
    seen (fun t => (t.getV 1, t.getV 15)) ((placed 0x200 0x8126).withRegs [(1, 0x02), (2, 0x11)]) =
      some (0x08, 0x00) := by decide

/-- V-AL24. -/
theorem test_shrReg_into_VF :
    seen (fun t => t.getV 15) ((placed 0x200 0x8F16).withRegs [(15, 0x03), (1, 0x10)]) =
      some (0x01) := by decide

/-- V-AL26. -/
theorem test_subnReg :
    seen (fun t => (t.getV 1, t.getV 15)) ((placed 0x200 0x8127).withRegs [(1, 0x02), (2, 0x01)]) =
      some (0xFF, 0x00) := by decide

/-- V-AL27. -/
theorem test_subnReg_no_borrow :
    seen (fun t => (t.getV 1, t.getV 15)) ((placed 0x200 0x8127).withRegs [(1, 0x02), (2, 0xFF)]) =
      some (0xFD, 0x01) := by decide

/-- V-AL29. -/
theorem test_shlReg :
    seen (fun t => (t.getV 1, t.getV 15)) ((placed 0x200 0x812E).withRegs [(1, 0x80), (2, 0x41)]) =
      some (0x82, 0x01) := by decide

/-- V-AL30. -/
theorem test_shlReg_lost_bit :
    seen (fun t => (t.getV 1, t.getV 15)) ((placed 0x200 0x812E).withRegs [(1, 0x01), (2, 0x80)]) =
      some (0x00, 0x00) := by decide

/-- V-IM1. -/
theorem test_ldI :
    seen (fun t => t.I) (placed 0x200 0xA2F0) =
      some (0x2F0) := by decide

/-- V-IM3. -/
theorem test_addIVx :
    seen (fun t => (t.I, t.getV 15)) (((placed 0x200 0xF41E).withI 0xFFF).withRegs [(4, 0x01)]) =
      some (0x1000, 0x00) := by decide

/-- V-IM4. -/
theorem test_addIVx_wraps :
    seen (fun t => t.I) (((placed 0x200 0xF41E).withI 0xFFFF).withRegs [(4, 0x01)]) =
      some (0x0000) := by decide

/-- V-IM6. -/
theorem test_ldFVx :
    seen (fun t => t.I) ((placed 0x200 0xF529).withRegs [(5, 0x0A)]) =
      some (0x019) := by decide

/-- V-IM7. -/
theorem test_ldFVx_register :
    seen (fun t => t.I) (((placed 0x200 0xF529).withRegs [(5, 0x0A)]).withParameters ⟨.fault, .fault, .register, specFont⟩) =
      some (0x032) := by decide

/-- V-IM9. -/
theorem test_ldBVx :
    seen (fun t => (t.peek 0x300, t.peek 0x301, t.peek 0x302, t.I)) (((placed 0x200 0xF733).withRegs [(7, 0x9C)]).withI 0x300) =
      some (0x01, 0x05, 0x06, 0x300) := by decide

/-- V-IM12. -/
theorem test_ldBVx_outside :
    seen (fun t => (t.peek 0xFFE, t.FAULT)) ((((placed 0x200 0xF733).withRegs [(7, 0xFF)]).withI 0xFFE).poke 0xFFE 0xAA) =
      some (0xAA, some ⟨.memoryOutOfRange 0x1000, some 0xF733, 0x200⟩) := by decide

/-- V-IM14. -/
theorem test_storeRegs :
    seen (fun t => ([0x300, 0x301, 0x302, 0x303].map t.peek, t.I)) (((placed 0x200 0xF255).withRegs [(0, 0x01), (1, 0x02), (2, 0x03), (3, 0x04)]).withI 0x300) =
      some ([0x01, 0x02, 0x03, 0x00], 0x303) := by decide

/-- V-IM17. -/
theorem test_storeRegs_outside :
    seen (fun t => (t.peek 0xFF1, t.I, t.FAULT)) (((placed 0x200 0xFF55).withRegs [(0, 0x11)]).withI 0xFF1) =
      some (0x00, 0xFF1, some ⟨.memoryOutOfRange 0x1000, some 0xFF55, 0x200⟩) := by decide

/-- V-IM18. -/
theorem test_loadRegs :
    seen (fun t => ([0, 1, 2, 3].map t.getV, t.I)) ((((((placed 0x200 0xF265).poke 0x300 0x0A).poke 0x301 0x0B).poke 0x302 0x0C).withRegs [(3, 0x99)]).withI 0x300) =
      some ([0x0A, 0x0B, 0x0C, 0x99], 0x303) := by decide

/-- V-IM20. -/
theorem test_loadRegs_outside :
    seen (fun t => (t.getV 0, t.I, t.DT, t.FAULT)) ((((placed 0x200 0xF165).withRegs [(0, 0x33)]).withI 0xFFF).withTimers 7 0) =
      some (0x33, 0xFFF, 7, some ⟨.memoryOutOfRange 0x1000, some 0xF165, 0x200⟩) := by decide

/-- V-DI10. -/
theorem test_drw :
    seen (fun t => (t.DISP.lit 0 0, t.DISP.lit 1 0, t.getV 15)) ((((placed 0x200 0xD011).poke 0x300 0xC0).withI 0x300).lightCell 0 0) =
      some (false, true, 0x01) := by decide

/-- V-DI5. -/
theorem test_drw_wraps :
    seen (fun t => ([59, 60, 63, 0, 3, 4].map fun c => t.DISP.lit c 0, t.getV 15)) ((((placed 0x200 0xD011).poke 0x300 0xFF).withI 0x300).withRegs [(0, 0x3C)]) =
      some ([false, true, true, true, true, false], 0x00) := by decide

/-- V-AL34: whatever the draw. -/
theorem test_rnd_mask_zero (s : State) : (rndResult s.draw 0x00) = 0x00 := by simp [rndResult]

/-- V-KT1. -/
theorem test_skp :
    seen (fun t => t.pc) (((placed 0x200 0xE29E).withRegs [(2, 0x0A)]).pressing [10]) =
      some (0x204) := by decide

/-- V-KT5. -/
theorem test_skp_number :
    seen (fun t => t.FAULT) (((placed 0x200 0xE29E).withRegs [(2, 0x10)]).pressing [0]) =
      some (some ⟨.keyIndexOutOfRange 0x10, some 0xE29E, 0x200⟩) := by decide

/-- V-KT3. -/
theorem test_sknp :
    seen (fun t => t.pc) ((placed 0x200 0xE2A1).withRegs [(2, 0x0A)]) =
      some (0x204) := by decide

/-- V-KT4. -/
theorem test_sknp_pressed :
    seen (fun t => t.pc) (((placed 0x200 0xE2A1).withRegs [(2, 0x0A)]).pressing [10]) =
      some (0x202) := by decide

/-- V-KT8. -/
theorem test_ldVxDT :
    seen (fun t => (t.pc, t.DT, t.getV 3)) ((placed 0x200 0xF307).withTimers 0x10 0) =
      some (0x202, 0x0F, 0x0F) := by decide

/-- V-KT10 (source S8). -/
theorem test_ldVxK_waits :
    seen (fun t => (t.pc, t.DT, t.getV 3)) (((placed 0x220 0xF30A).withTimers 5 0).withRegs [(3, 0x55)]) =
      some (0x220, 4, 0x55) := by decide

/-- V-KT11 (source S8). -/
theorem test_ldVxK :
    seen (fun t => (t.pc, t.getV 3)) ((placed 0x220 0xF30A).pressing [7, 9]) =
      some (0x222, 0x07) := by decide

/-- V-KT13. -/
theorem test_ldDTVx :
    seen (fun t => (t.pc, t.DT)) (((placed 0x200 0xF115).withRegs [(1, 0x3C)]).withTimers 5 0) =
      some (0x202, 0x3C) := by decide

/-- V-KT14. -/
theorem test_ldSTVx :
    seen (fun t => (t.pc, t.ST)) (((placed 0x200 0xF118).withRegs [(1, 0x05)]).withTimers 0 9) =
      some (0x202, 0x05) := by decide

/-- V-CY2. -/
theorem test_unrecognized :
    seen (fun t => (t.pc, t.DT, t.ST, t.FAULT)) ((placed 0x204 0x5121).withTimers 1 1) =
      some (0x206, 0, 0, none) := by decide

/-! ## A witness for every statement with hypotheses -/

theorem witness_DecodeOfEncode :
    (Instr.sys 0x0EF#12).wellFormed = true ∧ (Instr.drw 15 15 15).wellFormed = true ∧ Instr.ret.wellFormed = true := by decide

theorem witness_EncodeOfDecode : decode 0xFFFF#16 = .error (.unrecognized 0xFFFF#16) ∧ decode 0xFF65#16 = .ok (.loadRegs 15) ∧
    decode 0x0000#16 = .ok (.sys 0#12) := ⟨rfl, rfl, rfl⟩

theorem witness_EveryWordOfEveryRow : (0x0DF#12).toNat ≠ 0x0E0 ∧ (0x0DF#12).toNat ≠ 0x0EE := by decide

/-- A core about to run `6001` at 0xFFE, the last place a fetch succeeds. -/
theorem witness_StepRunsTheDecodedInstruction :
    let s := placed 0xFFE 0x6001
    s.FAULT = none ∧ translateAddr s.cfg.addrPolicy s.pc.toNat = .ok 0xFFE ∧
      translateAddr s.cfg.addrPolicy (s.pc.toNat + 1) = .ok 0xFFF ∧
      (0x6001#16).toNat = (s.peek 0xFFE).toNat * 256 + (s.peek 0xFFF).toNat ∧ decode 0x6001#16 = .ok (.ldImm 0 1) :=
  ⟨rfl, rfl, rfl, by decide, rfl⟩

/-- The same at 0xFFF under `ADDR_POLICY = Wrap`. -/
theorem witness_StepRunsTheDecodedInstruction_wrapped :
    let s := ({ State.resetWith ⟨.wrap, .fault, .nibble, specFont⟩ with pc := 0xFFF }).withFetchWord 16 0x6001
    s.FAULT = none ∧ translateAddr s.cfg.addrPolicy s.pc.toNat = .ok 0xFFF ∧
      translateAddr s.cfg.addrPolicy (s.pc.toNat + 1) = .ok 0 ∧
      (0x6001#16).toNat = (s.peek 0xFFF).toNat * 256 + (s.peek 0).toNat ∧ decode 0x6001#16 = .ok (.ldImm 0 1) :=
  ⟨rfl, rfl, rfl, by decide, rfl⟩

theorem witness_UnrecognizedWord :
    let s := placed 0x204 0x5121
    s.FAULT = none ∧ translateAddr s.cfg.addrPolicy s.pc.toNat = .ok 0x204 ∧
      translateAddr s.cfg.addrPolicy (s.pc.toNat + 1) = .ok 0x205 ∧
      (0x5121#16).toNat = (s.peek 0x204).toNat * 256 + (s.peek 0x205).toNat ∧
      decode 0x5121#16 = .error (.unrecognized 0x5121#16) :=
  ⟨rfl, rfl, rfl, by decide, rfl⟩

/-- V-CY8 and V-CY7: the two ends of the range. -/
theorem witness_FetchOutsideMemory :
    ∀ a ∈ [0xFFF, 0x1000, 0xFFFF], let s : State := { State.reset with pc := BitVec.ofNat 16 a }
      s.FAULT = none ∧ s.cfg.addrPolicy = .fault ∧ 4095 ≤ s.pc.toNat :=
  fun a h => ⟨rfl, rfl, (by simp : ∀ a ∈ [0xFFF, 0x1000, 0xFFFF], 4095 ≤ (BitVec.ofNat 16 a).toNat) a h⟩

theorem witness_StepIsEnabled :
    State.reset.FAULT = none ∧
    (State.reset.latchFault .unsupportedInstruction (some 0)).FAULT = some ⟨.unsupportedInstruction, some 0, 0x200⟩ := by
  decide

/-- A step that faults at fetch and one that faults at its instruction. -/
theorem witness_FaultingStep :
    (∃ t r, ({ State.reset with pc := 0xFFF } : State).FAULT = none ∧
      step { State.reset with pc := 0xFFF } = .next t ∧ t.FAULT = some r ∧ r.opcode = none) ∧
    ∃ t r, State.reset.FAULT = none ∧ step State.reset = .next t ∧ t.FAULT = some r ∧ r.opcode = some 0x0000#16 :=
  ⟨⟨_, ⟨.memoryOutOfRange 0x1000, none, 0xFFF⟩, rfl, rfl, rfl, rfl⟩,
   ⟨_, ⟨.unsupportedInstruction, some 0, 0x200⟩, rfl, rfl, rfl, rfl⟩⟩

/-- One that raises and one that does not. -/
theorem witness_InstructionsRaise :
    (∃ t, State.reset.FAULT = none ∧ exec .ret State.reset = .next t ∧ t.FAULT ≠ none ∧ Raises State.reset .ret) ∧
    ∃ t, exec .cls State.reset = .next t ∧ t.FAULT = none ∧ ¬ Raises State.reset .cls :=
  ⟨⟨_, rfl, rfl, by decide, rfl⟩, ⟨_, rfl, rfl, id⟩⟩

/-- The blocks of `Raises` at their boundaries: the last block inside memory, the first outside, and none. -/
theorem witness_Raises_at_its_boundaries :
    ¬ Raises (State.reset.withI 0xFFD) (.ldBVx 7) ∧ Raises (State.reset.withI 0xFFE) (.ldBVx 7) ∧
    ¬ Raises (State.reset.withI 0xFF0) (.storeRegs 15) ∧ Raises (State.reset.withI 0xFF1) (.loadRegs 15) ∧
    ¬ Raises (State.reset.withI 0xFFFF) (.drw 0 1 0) ∧ Raises (State.reset.withI 0x1000) (.drw 0 1 1) := by
  simp only [Raises, BlockFaults]
  decide

theorem witness_PcAfterEveryInstruction :
    ∃ t, State.reset.FAULT = none ∧ exec (.jpV0 0xFFF) (State.reset.withRegs [(0, 0xFF)]) = .next t ∧ t.FAULT = none ∧
      pcAfter (State.reset.withRegs [(0, 0xFF)]) (.jpV0 0xFFF) = 0x10FE := ⟨_, rfl, rfl, rfl, by decide⟩

/-- Each clause of the timer statement: the two timer writes, the timer read, and neither write. -/
theorem witness_Timers :
    (∃ t, step (placed 0x200 0xF115) = .next t ∧ t.FAULT = none ∧ (placed 0x200 0xF115).fetch = .ok 0xF115 ∧
      decode 0xF115 = .ok (.ldDTVx 1)) ∧
    (∃ t, step (placed 0x200 0xF118) = .next t ∧ t.FAULT = none ∧ (placed 0x200 0xF118).fetch = .ok 0xF118 ∧
      decode 0xF118 = .ok (.ldSTVx 1)) ∧
    (∃ t, step (placed 0x200 0xF107) = .next t ∧ t.FAULT = none ∧ (placed 0x200 0xF107).fetch = .ok 0xF107 ∧
      decode 0xF107 = .ok (.ldVxDT 1)) ∧
    ∃ t, step (placed 0x200 0x5121) = .next t ∧ t.FAULT = none ∧ (placed 0x200 0x5121).fetch = .ok 0x5121 ∧
      decode 0x5121 = .error (.unrecognized 0x5121) :=
  ⟨⟨_, rfl, rfl, rfl, rfl⟩, ⟨_, rfl, rfl, rfl, rfl⟩, ⟨_, rfl, rfl, rfl, rfl⟩, ⟨_, rfl, rfl, rfl, rfl⟩⟩

/-- The clause `d ≠ 0` of the skips. -/
theorem witness_skip_spellings : (1 : Fin 16).val ≠ 0 ∧ (15 : Fin 16).val ≠ 0 ∧
    decode 0x5FFF = .error (.unrecognized 0x5FFF) ∧ decode 0x9001 = .error (.unrecognized 0x9001) :=
  ⟨by decide, by decide, rfl, rfl⟩

/-- The clause `x ≠ F` of the flag-setting instructions, and its other side. -/
theorem witness_flag_clauses : (0 : Reg) ≠ VF ∧ (14 : Reg) ≠ VF ∧ ¬ (15 : Reg) ≠ VF := by decide

/-- The stack's two ends for calls and returns. -/
theorem witness_stack_ends :
    (State.reset.withSP 0).SP.val < 16 ∧ (State.reset.withSP 15).SP.val < 16 ∧ (State.reset.withSP 16).SP.val = 16 ∧
    0 < (State.reset.withSP 1).SP.val ∧ 0 < (State.reset.withSP 16).SP.val ∧ (State.reset.withSP 0).SP.val = 0 := by
  decide

theorem witness_ReturnResumesAfterTheCall :
    ∃ t u : State, ∃ _ : (State.reset.withSP 15).SP.val < 16, exec (.call 0x300) (State.reset.withSP 15) = .next t ∧
      u.SP = t.SP ∧ u.STACK[15] = t.STACK[15] ∧ u ≠ t :=
  ⟨_, ({ State.reset with SP := 16, STACK := State.reset.STACK.set 15 0x202 } : State), by decide, rfl, rfl, rfl, by decide⟩

theorem witness_PointAtGlyph :
    State.reset.cfg.fx29Source = .nibble ∧
    (State.resetWith ⟨.fault, .fault, .register, specFont⟩).cfg.fx29Source = .register := by decide

/-- The digits' block at the last place it fits, and across the wrap. -/
theorem witness_StoreDecimal :
    (MemoryCanonical State.reset ∧ (State.reset.withI 0xFFD).indexBlock 3 = .ok [0xFFD, 0xFFE, 0xFFF]) ∧
    ((State.resetWith ⟨.wrap, .fault, .nibble, specFont⟩).withI 0xFFE).indexBlock 3 = .ok [0xFFE, 0xFFF, 0] :=
  ⟨⟨rfl, rfl⟩, rfl⟩

/-- V-IM16, one register, and an index past memory under `Wrap`. -/
theorem witness_StoreAndLoadRegisters :
    (∃ is, (State.reset.withI 0xFF0).indexBlock 16 = .ok is ∧ is.length = 16) ∧
    (State.reset.withI 0xFFF).indexBlock 1 = .ok [0xFFF] ∧
    ((State.resetWith ⟨.wrap, .fault, .nibble, specFont⟩).withI 0xFFFF).indexBlock 2 = .ok [0xFFF, 0] :=
  ⟨⟨_, rfl, rfl⟩, rfl, rfl⟩

theorem witness_BlockOutsideMemory :
    BlockFaults (State.reset.withI 0xFFF) 0xFFF 2 ∧ BlockFaults (State.reset.withI 0xFFE) 0xFFE 3 ∧
    BlockFaults (State.reset.withI 0xFF1) 0xFF1 16 ∧ BlockFaults (State.reset.withI 0xFFFF) 0xFFFF 1 := by
  unfold BlockFaults
  decide

theorem witness_LoadAfterStore :
    ∃ t u : State, MemoryCanonical (State.reset.withI 0x400) ∧
      (State.reset.withI 0x400).indexBlock 3 = .ok [0x400, 0x401, 0x402] ∧
      exec (.storeRegs 2) (State.reset.withI 0x400) = .next t ∧ u.MEM = t.MEM ∧ u.cfg = t.cfg ∧ u.I = 0x400 ∧
      u.getV 0 = 0x55 :=
  ⟨_, (State.reset.withI 0x400).withRegs [(0, 0x55)], rfl, rfl, rfl, rfl, rfl, rfl, rfl⟩

/-- A covered lit cell, a covered unlit one, and cells not covered (V-DI10). -/
theorem witness_Draw :
    let s := ((State.reset.withI 0x300).poke 0x300 0xC0).lightCell 0 0
    s.indexBlock 1 = .ok [0x300] ∧ SpriteCovers s [0x300] 0 0 0 0 ∧ SpriteCovers s [0x300] 0 0 1 0 ∧
      s.DISP.lit 0 0 = true ∧ s.DISP.lit 1 0 = false :=
  ⟨rfl, ⟨0, 0x300, 0, rfl, by decide, by decide, rfl, rfl⟩, ⟨0, 0x300, 1, rfl, by decide, by decide, rfl, rfl⟩,
    by decide, by decide⟩

/-- No sprite row, no covered cell. -/
theorem witness_Draw_empty (c : Fin 64) (r : Fin 32) :
    (State.reset.withI 0xFFFF).indexBlock 0 = .ok [] ∧ ¬ SpriteCovers State.reset [] 0 0 c r :=
  ⟨rfl, fun ⟨_, _, _, h, _⟩ => by simp at h⟩

theorem witness_DrawingTwice :
    let s := (State.reset.withI 0x300).poke 0x300 0x80
    ∃ t u : State, s.indexBlock 1 = .ok [0x300] ∧ exec (.drw 0 1 1) s = .next t ∧ u.I = s.I ∧ u.cfg = s.cfg ∧
      u.MEM = s.MEM ∧ u.DISP = t.DISP ∧ u.getV 0 = s.getV 0 ∧ u.getV 1 = s.getV 1 ∧ s.peek 0x300 ≠ 0#8 ∧
      ∀ (c : Fin 64) (r : Fin 32), s.DISP.lit c r = false :=
  let s := (State.reset.withI 0x300).poke 0x300 0x80
  ⟨s.preExecute.drawSprite 0 0 [0x80], { s with DISP := (s.preExecute.drawSprite 0 0 [0x80]).DISP }, rfl, rfl, rfl, rfl,
    rfl, rfl, rfl, rfl, by decide, fun c r => Display.lit_blank c r⟩

theorem witness_KeySkips :
    ((State.reset.withRegs [(2, 15)]).getV 2).toNat < 16 ∧
    (State.resetWith ⟨.fault, .lowNibble, .nibble, specFont⟩).cfg.keyIndexPolicy = .lowNibble ∧
    16 ≤ ((State.reset.withRegs [(2, 16)]).getV 2).toNat ∧ State.reset.cfg.keyIndexPolicy = .fault := by decide

/-- The lowest of keys 7 and 9, and no key. -/
theorem witness_KeyWait :
    (State.reset.pressing [7, 9]).keyDown 7 = true ∧
    (∀ j : Fin 16, j.val < (7 : Fin 16).val → (State.reset.pressing [7, 9]).keyDown j = false) ∧
    (State.reset.pressing [15]).keyDown 15 = true ∧
    (∀ j : Fin 16, j.val < (15 : Fin 16).val → (State.reset.pressing [15]).keyDown j = false) ∧
    ∀ k : Fin 16, State.reset.keyDown k = false := by decide

theorem latch_true_of_none {s : State} (h : s.FAULT = none) : FaultLatchTrue s := fun r hr => by simp [h] at hr

/-- All three invariants, in a state a program can reach, that steps. -/
theorem witness_EveryStepKeeps :
    ∃ t, MemoryCanonical (placed 0xFFE 0x2300) ∧ FaultLatchTrue (placed 0xFFE 0x2300) ∧
      PcWithinReach (placed 0xFFE 0x2300) ∧ step (placed 0xFFE 0x2300) = .next t ∧ t.STACK[0] = 0x1000 :=
  ⟨_, rfl, latch_true_of_none rfl, fun _ => by decide, rfl, rfl⟩

/-- A latch that is set and true. -/
theorem witness_FaultLatchTrue_set :
    FaultLatchTrue (State.reset.latchFault (.stackUnderflow 0) (some 0x00EE)) := by
  intro r h
  cases h
  exact ⟨rfl, rfl, rfl, rfl⟩

theorem witness_CanonicalMemories :
    ∃ m m' : Memory, Memory.wf specFont m = true ∧ Memory.wf specFont m' = true ∧ m ≠ [] ∧
      ∀ a, Memory.read specFont m a = Memory.read specFont m' a :=
  ⟨[(0x300, 7)], [(0x300, 7)], by decide, by decide, by decide, fun _ => rfl⟩

theorem witness_OnlyTheListedInstructionsWrite :
    ∃ t, exec (.storeRegs 0) (State.reset.withI 0x300) = .next t ∧ t.I ≠ 0x300 := ⟨_, rfl, by decide⟩

/-- Two states that differ in a stale slot, in the sound timer, in the draws, and step. -/
theorem witness_unobserved_parts :
    AgreeButStaleSlots ((placed 0x200 0x00EE).withSP 1) (((placed 0x200 0x00EE).withSP 1).withSlot 1 9) ∧
    ((placed 0x200 0x00EE).withSP 1).STACK ≠ (((placed 0x200 0x00EE).withSP 1).withSlot 1 9).STACK ∧
    AgreeButSound (placed 0x200 0xF118) { placed 0x200 0xF118 with ST := 9 } ∧
    AgreeButDraws (placed 0x200 0xC3FF) { placed 0x200 0xC3FF with draws := 7 } ∧
    (∃ t, step (placed 0x200 0xF118) = .next t) ∧ (∃ t, step (placed 0x200 0xC3FF) = .next t) ∧
    ∃ t, step ((placed 0x200 0x00EE).withSP 1) = .next t :=
  ⟨⟨rfl, by decide⟩, by decide, rfl, rfl, ⟨_, rfl⟩, ⟨_, rfl⟩, ⟨_, rfl⟩⟩

/-- The other clause of the stale-slot statement: a halted core. -/
theorem witness_stale_slots_halted :
    ∃ r, step (State.reset.latchFault .unsupportedInstruction (some 0)) = .fault r := ⟨_, rfl⟩

/-- V-RS2, V-RS3: the largest program and the first too large. -/
theorem witness_LoadProgram :
    MemoryCanonical State.reset ∧ (List.replicate 3584 (0 : Byte)).length + 0x200 ≤ 4096 ∧
    4096 < (List.replicate 3585 (0 : Byte)).length + 0x200 ∧ [(0x60 : Byte), 0x01][1]? = some 0x01 := by
  simp only [List.length_replicate]
  exact ⟨rfl, by decide, by decide, rfl⟩

theorem witness_KeyWaitEnds :
    ∃ t, (∀ j : Fin 16, State.reset.keyDown j = false) ∧ exec (.ldVxK 3) State.reset = .next t ∧
      (State.reset.pressing [7, 9]).KEY[7] = true ∧
      ∀ j : Fin 16, j.val < 7 → (State.reset.pressing [7, 9]).KEY[j.val] = false :=
  ⟨_, by decide, rfl, by decide, by decide⟩

/-- A halted core at an address that cannot be fetched: the placed word is still the next one run. -/
theorem witness_PlacedWord :
    MemoryCanonical (({ State.reset with pc := 0xFFFF } : State).latchFault (.memoryOutOfRange 0xFFFF) none) := rfl

end Sys2Proof.Tests
end

/-! PROOFS. The dispatch map read as numbers (30_encoding R58, R59): a row that hits a word decides what it decodes to. -/

namespace Sys2Proof

/-! ## One row at most hits a word -/

/-- The priority of R59 is needed for `00E0` and `00EE` only: any two other rows differ in a bit both of them fix. -/
theorem rows_apart :
    (opcodeRows.drop 2).Pairwise fun q r => q.pattern &&& r.mask ≠ r.pattern &&& q.mask := by decide

/-- Every row after `0nnn` fixes a first nibble other than 0. -/
theorem rows_after_sys_ge : ∀ r ∈ opcodeRows.drop 3, 0x1000 ≤ r.pattern.toNat := by decide

theorem Row.not_hits_of_apart {q r : Row} {w : Word} (hqr : q.pattern &&& r.mask ≠ r.pattern &&& q.mask)
    (hr : r.hits w = true) : q.hits w = false := by
  rw [Row.hits, beq_eq_false_iff_ne]
  intro hq
  rw [Row.hits, beq_iff_eq] at hr
  apply hqr
  rw [← hq, ← hr, BitVec.and_assoc, BitVec.and_assoc, BitVec.and_comm q.mask]

theorem Row.not_hits_exact {p w : Word} {build : Word → Instr} (hp : w ≠ p) :
    Row.hits ⟨0xFFFF#16, p, build⟩ w = false := by
  rw [Row.hits, beq_eq_false_iff_ne, show 0xFFFF#16 = BitVec.allOnes 16 from rfl, BitVec.and_allOnes]
  exact hp

/-- R58 with R59: for a word other than the two exact ones, the row that hits is the row that decodes. -/
theorem decode_of_hits {r : Row} {w : Word} (hr : r ∈ opcodeRows.drop 2) (hit : r.hits w = true)
    (hcls : w ≠ 0x00E0#16) (hret : w ≠ 0x00EE#16) : decode w = .ok (r.build w) := by
  have hfind : (opcodeRows.drop 2).find? (fun r => r.hits w) = some r := by
    obtain ⟨before, after, hsplit⟩ := List.append_of_mem hr
    obtain ⟨-, -, hapart⟩ := List.pairwise_append.1 (hsplit ▸ rows_apart)
    refine List.find?_eq_some_iff_append.2 ⟨hit, before, after, hsplit, fun q hq => ?_⟩
    simp [Row.not_hits_of_apart (hapart q hq r List.mem_cons_self) hit]
  have hrows : opcodeRows.find? (fun r => r.hits w) = some r := by
    rw [← List.take_append_drop 2 opcodeRows, List.find?_append, hfind]
    simp [opcodeRows, rowsControl, Row.not_hits_exact hcls, Row.not_hits_exact hret]
  rw [decode, hrows]

/-- A word hit by a row after `0nnn` has a first nibble other than 0, so it is neither of the exact words of R59. -/
theorem decode_of_hits_after_sys {r : Row} {w : Word} (hr : r ∈ opcodeRows.drop 3) (hit : r.hits w = true) :
    decode w = .ok (r.build w) := by
  have hge : 0x1000 ≤ w.toNat := by
    rw [Row.hits_eq, decide_eq_true_eq] at hit
    calc 0x1000 ≤ r.pattern.toNat := rows_after_sys_ge r hr
      _ = w.toNat &&& r.mask.toNat := hit.symm
      _ ≤ w.toNat := Nat.and_le_left
  refine decode_of_hits (List.mem_of_mem_tail hr) hit ?_ ?_ <;> (rintro rfl; exact absurd hge (by decide))

/-! ## Hits and fields of a word given as a number -/

theorem Row.hits_ofNat {m p w : Nat} {build : Word → Instr} :
    Row.hits ⟨BitVec.ofNat 16 m, BitVec.ofNat 16 p, build⟩ (BitVec.ofNat 16 w) = true ↔
      w % 0x10000 &&& m % 0x10000 = p % 0x10000 := by
  simp [Row.hits_eq]

theorem fieldX_ofNat {w : Nat} {x : Reg} (h : w / 0x100 % 0x10 = x.val) : fieldX (BitVec.ofNat 16 w) = x := by
  apply Fin.ext
  rw [fieldX_val, BitVec.toNat_ofNat]
  omega

theorem fieldY_ofNat {w : Nat} {y : Reg} (h : w / 0x10 % 0x10 = y.val) : fieldY (BitVec.ofNat 16 w) = y := by
  apply Fin.ext
  rw [fieldY_val, BitVec.toNat_ofNat]
  omega

theorem fieldN_ofNat {w : Nat} {n : Count} (h : w % 0x10 = n.val) : fieldN (BitVec.ofNat 16 w) = n := by
  apply Fin.ext
  rw [fieldN_val, BitVec.toNat_ofNat]
  omega

theorem fieldNN_ofNat {w : Nat} {nn : Byte} (h : w % 0x100 = nn.toNat) : fieldNN (BitVec.ofNat 16 w) = nn := by
  apply BitVec.eq_of_toNat_eq
  rw [fieldNN_toNat, BitVec.toNat_ofNat]
  omega

theorem fieldNNN_ofNat {w : Nat} {nnn : Addr12} (h : w % 0x1000 = nnn.toNat) :
    fieldNNN (BitVec.ofNat 16 w) = nnn := by
  apply BitVec.eq_of_toNat_eq
  rw [fieldNNN_toNat, BitVec.toNat_ofNat]
  omega

/-! ## The words of a row, format by format (R56)

`p` is the row's match, zero in the operands' bits, and `f` its constructor. Where a lemma is used, its last two
arguments look the row up in the dispatch map and compute those bits of `p`. -/

/-- R59: `0nnn` is every word with a first nibble of 0 that is not one of the two exact words. -/
theorem decodesTo_sys {nnn : Addr12} (hcls : nnn.toNat ≠ 0x0E0) (hret : nnn.toNat ≠ 0x0EE) :
    Machine.DecodesTo nnn.toNat (.sys nnn) := by
  have hlt := nnn.isLt
  have hne {c : Nat} (hc : c < 0x10000) (h : nnn.toNat ≠ c) : BitVec.ofNat 16 nnn.toNat ≠ BitVec.ofNat 16 c := by
    rw [Ne, ← BitVec.toNat_inj, BitVec.toNat_ofNat, BitVec.toNat_ofNat]
    omega
  have hit : Row.hits ⟨0xF000#16, 0x0000#16, buildNNN .sys⟩ (BitVec.ofNat 16 nnn.toNat) = true := by
    rw [Row.hits_ofNat, land_F000]
    omega
  rw [Machine.DecodesTo, decode_of_hits List.mem_cons_self hit (hne (by decide) hcls) (hne (by decide) hret)]
  dsimp only [buildNNN]
  rw [fieldNNN_ofNat (Nat.mod_eq_of_lt hlt)]

/-- A row after `0nnn` that hits: the hit as an equation on numbers, and what the row builds. -/
theorem decodesTo_of_row {m p w : Nat} {build : Word → Instr} {i : Instr}
    (hr : ⟨BitVec.ofNat 16 m, BitVec.ofNat 16 p, build⟩ ∈ opcodeRows.drop 3)
    (hit : w % 0x10000 &&& m % 0x10000 = p % 0x10000) (hi : build (BitVec.ofNat 16 w) = i) :
    Machine.DecodesTo w i :=
  (decode_of_hits_after_sys hr (Row.hits_ofNat.2 hit)).trans (congrArg Except.ok hi)

theorem decodesTo_NNN {p : Nat} {f : Addr12 → Instr} (nnn : Addr12)
    (hr : ⟨0xF000#16, BitVec.ofNat 16 p, buildNNN f⟩ ∈ opcodeRows.drop 3 := by
      simp [opcodeRows, rowsControl, rowsAlu, rowsIndexDisplayKeys, rowsF])
    (hp : p % 0x1000 = 0 := by decide) : Machine.DecodesTo (p + nnn.toNat) (f nnn) := by
  apply decodesTo_of_row hr
  · rw [land_F000]
    omega
  · rw [buildNNN, fieldNNN_ofNat]
    omega

theorem decodesTo_XNN {p : Nat} {f : Reg → Byte → Instr} (x : Reg) (nn : Byte)
    (hr : ⟨0xF000#16, BitVec.ofNat 16 p, buildXNN f⟩ ∈ opcodeRows.drop 3 := by
      simp [opcodeRows, rowsControl, rowsAlu, rowsIndexDisplayKeys, rowsF])
    (hp : p % 0x1000 = 0 := by decide) : Machine.DecodesTo (p + 0x100 * x.val + nn.toNat) (f x nn) := by
  apply decodesTo_of_row hr
  · rw [land_F000]
    omega
  · rw [buildXNN, fieldX_ofNat, fieldNN_ofNat] <;> omega

theorem decodesTo_XY {p : Nat} {f : Reg → Reg → Instr} (x y : Reg)
    (hr : ⟨0xF00F#16, BitVec.ofNat 16 p, buildXY f⟩ ∈ opcodeRows.drop 3 := by
      simp [opcodeRows, rowsControl, rowsAlu, rowsIndexDisplayKeys, rowsF])
    (hp : p / 0x10 % 0x100 = 0 := by decide) : Machine.DecodesTo (p + 0x100 * x.val + 0x10 * y.val) (f x y) := by
  apply decodesTo_of_row hr
  · rw [land_F00F]
    omega
  · rw [buildXY, fieldX_ofNat, fieldY_ofNat] <;> omega

theorem decodesTo_XYN {p : Nat} {f : Reg → Reg → Count → Instr} (x y : Reg) (n : Count)
    (hr : ⟨0xF000#16, BitVec.ofNat 16 p, buildXYN f⟩ ∈ opcodeRows.drop 3 := by
      simp [opcodeRows, rowsControl, rowsAlu, rowsIndexDisplayKeys, rowsF])
    (hp : p % 0x1000 = 0 := by decide) : Machine.DecodesTo (p + 0x100 * x.val + 0x10 * y.val + n.val) (f x y n) := by
  apply decodesTo_of_row hr
  · rw [land_F000]
    omega
  · rw [buildXYN, fieldX_ofNat, fieldY_ofNat, fieldN_ofNat] <;> omega

theorem decodesTo_X {p : Nat} {f : Reg → Instr} (x : Reg)
    (hr : ⟨0xF0FF#16, BitVec.ofNat 16 p, buildX f⟩ ∈ opcodeRows.drop 3 := by
      simp [opcodeRows, rowsControl, rowsAlu, rowsIndexDisplayKeys, rowsF])
    (hp : p / 0x100 % 0x10 = 0 := by decide) : Machine.DecodesTo (p + 0x100 * x.val) (f x) := by
  apply decodesTo_of_row hr
  · rw [land_F0FF]
    omega
  · rw [buildX, fieldX_ofNat]
    omega

/-- Settles O3: one lemma per format, used at each of the format's rows. -/
theorem everyWordOfEveryRowDecodesToIt : Obligations.EveryWordOfEveryRowDecodesToIt := by
  unfold Obligations.EveryWordOfEveryRowDecodesToIt
  intro x y n nn nnn
  exact ⟨rfl, rfl, decodesTo_sys, decodesTo_NNN nnn, decodesTo_NNN nnn, decodesTo_XNN x nn, decodesTo_XNN x nn,
    decodesTo_XY x y, decodesTo_XNN x nn, decodesTo_XNN x nn, decodesTo_XY x y, decodesTo_XY x y, decodesTo_XY x y,
    decodesTo_XY x y, decodesTo_XY x y, decodesTo_XY x y, decodesTo_XY x y, decodesTo_XY x y, decodesTo_XY x y,
    decodesTo_XY x y, decodesTo_NNN nnn, decodesTo_NNN nnn, decodesTo_XNN x nn, decodesTo_XYN x y n, decodesTo_X x,
    decodesTo_X x, decodesTo_X x, decodesTo_X x, decodesTo_X x, decodesTo_X x, decodesTo_X x, decodesTo_X x,
    decodesTo_X x, decodesTo_X x, decodesTo_X x⟩

end Sys2Proof

/-! PROOFS. The cycle (40_cycle R65 to R69): the timers of every step, and the step of an unrecognized word. -/

namespace Sys2Proof.Machine

/-! ## What the shared operations leave of the timers -/

@[simp] theorem State.skipIf_DT (s : State) (c : Bool) : (s.skipIf c).DT = s.DT := by rw [State.skipIf_eq]
@[simp] theorem State.skipIf_ST (s : State) (c : Bool) : (s.skipIf c).ST = s.ST := by rw [State.skipIf_eq]

@[simp] theorem State.pokeAll_DT (is : List Nat) (bs : List Byte) (s : State) : (State.pokeAll is bs s).DT = s.DT := by
  rw [State.pokeAll_eq]
@[simp] theorem State.pokeAll_ST (is : List Nat) (bs : List Byte) (s : State) : (State.pokeAll is bs s).ST = s.ST := by
  rw [State.pokeAll_eq]

@[simp] theorem State.setRegsFrom_DT (k : Nat) (bs : List Byte) (s : State) : (State.setRegsFrom k bs s).DT = s.DT := by
  rw [State.setRegsFrom_eq]
@[simp] theorem State.setRegsFrom_ST (k : Nat) (bs : List Byte) (s : State) : (State.setRegsFrom k bs s).ST = s.ST := by
  rw [State.setRegsFrom_eq]

/-- An effect that keeps the timers it runs on leaves them counted down once (R67). -/
theorem ticked_of_timers_eq {s t : State} (hDT : t.DT = s.preExecute.DT) (hST : t.ST = s.preExecute.ST) :
    Ticked s t := by
  rw [Ticked, hDT, hST]
  exact ⟨countDown_toNat s.DT, countDown_toNat s.ST⟩

theorem ticked_preExecute (s : State) : Ticked s s.preExecute := ticked_of_timers_eq rfl rfl

/-- A state that is not halted is not one that took a fault (R113). -/
theorem State.ne_latchFault {t : State} (h : t.FAULT = none) (s : State) (k : FaultKind) (op : Option Word) :
    t ≠ s.latchFault k op := by
  rintro rfl
  simp at h

/-! ## The timers through every instruction -/

/-- R67 over every instruction: only `Fx15` and `Fx18` write a timer, and without a fault the others leave both timers
as they were counted down before the execute phase. -/
theorem exec_ticked {s t : State} {i : Instr} (h : exec i s = .next t) (hF : t.FAULT = none)
    (hDT : ∀ x, i ≠ .ldDTVx x) (hST : ∀ x, i ≠ .ldSTVx x) : Ticked s t := by
  have unlatched := State.ne_latchFault hF s
  cases i with
  | ldDTVx x => exact absurd rfl (hDT x)
  | ldSTVx x => exact absurd rfl (hST x)
  | sys nnn => exact absurd (execSys_next.1 h) (unlatched _ _)
  | call nnn =>
    obtain ⟨-, rfl⟩ := (execCall_next.1 h).resolve_right (by simp [unlatched])
    exact ticked_preExecute s
  | ret =>
    obtain ⟨-, rfl⟩ := (execRet_next.1 h).resolve_right (by simp [unlatched])
    exact ticked_preExecute s
  | drw x y n =>
    obtain ⟨is, -, rfl⟩ := (execDrw_next.1 h).resolve_right (by simp [unlatched])
    exact ticked_of_timers_eq rfl rfl
  | ldBVx x =>
    obtain ⟨is, -, rfl⟩ := (execLdBVx_next.1 h).resolve_right (by simp [unlatched])
    exact ticked_of_timers_eq (by simp) (by simp)
  | storeRegs x =>
    obtain ⟨is, -, rfl⟩ := (execStoreRegs_next.1 h).resolve_right (by simp [unlatched])
    exact ticked_of_timers_eq (by simp) (by simp)
  | loadRegs x =>
    obtain ⟨is, -, rfl⟩ := (execLoadRegs_next.1 h).resolve_right (by simp [unlatched])
    exact ticked_of_timers_eq (by simp) (by simp)
  | skp x =>
    obtain ⟨k, -, rfl⟩ := (execSkp_next.1 h).resolve_right (by simp [unlatched])
    exact ticked_of_timers_eq (by simp) (by simp)
  | sknp x =>
    obtain ⟨k, -, rfl⟩ := (execSknp_next.1 h).resolve_right (by simp [unlatched])
    exact ticked_of_timers_eq (by simp) (by simp)
  | ldVxK x => obtain ⟨k, -, rfl⟩ | ⟨-, rfl⟩ := execLdVxK_next.1 h <;> exact ticked_of_timers_eq rfl rfl
  | seImm | sneImm | seReg | sneReg =>
    simp only [exec_seImm, exec_sneImm, exec_seReg, exec_sneReg, Host.Outcome.next.injEq] at h
    subst h
    exact ticked_of_timers_eq (by simp) (by simp)
  | _ =>
    obtain rfl := Host.Outcome.next.inj h
    exact ticked_of_timers_eq rfl rfl

/-- Each timer through every instruction that takes no fault: counted down unless the instruction writes it. -/
theorem exec_timers {s t : State} {i : Instr} (h : exec i s = .next t) (hF : t.FAULT = none) :
    ((∀ x, i ≠ .ldDTVx x) → t.DT.toNat = s.DT.toNat - 1) ∧
    ((∀ x, i ≠ .ldSTVx x) → t.ST.toNat = s.ST.toNat - 1) := by
  cases i with
  | ldDTVx x =>
    obtain rfl := Host.Outcome.next.inj h
    exact ⟨fun hne => absurd rfl (hne x), fun _ => countDown_toNat s.ST⟩
  | ldSTVx x =>
    obtain rfl := Host.Outcome.next.inj h
    exact ⟨fun _ => countDown_toNat s.DT, fun hne => absurd rfl (hne x)⟩
  | _ =>
    obtain ⟨hDT, hST⟩ := exec_ticked h hF nofun nofun
    exact ⟨fun _ => hDT, fun _ => hST⟩

/-! ## The step -/

/-- A step that takes no fault ran the fetched word: its instruction, or nothing for a word that has none. -/
theorem step_cases_of_no_fault {s t : State} (h : step s = .next t) (hF : t.FAULT = none) :
    (∃ w i, s.fetch = .ok w ∧ decode w = .ok i ∧ exec i s = .next t) ∨ t = s.preExecute := by
  obtain ⟨-, ⟨k, -, ht⟩ | hrun | ⟨w, e, -, -, ht⟩⟩ := step_next_cases h
  · exact absurd ht (State.ne_latchFault hF s k none)
  · exact .inl hrun
  · exact .inr ht

/-- R67 over every step that takes no fault: a timer is counted down unless the fetched word is the one that writes it. -/
theorem step_timers {s t : State} (h : step s = .next t) (hF : t.FAULT = none) :
    ((∀ w x, s.fetch = .ok w → decode w ≠ .ok (.ldDTVx x)) → t.DT.toNat = s.DT.toNat - 1) ∧
    ((∀ w x, s.fetch = .ok w → decode w ≠ .ok (.ldSTVx x)) → t.ST.toNat = s.ST.toNat - 1) := by
  obtain ⟨w, i, hw, hd, hx⟩ | rfl := step_cases_of_no_fault h hF
  · obtain ⟨hDT, hST⟩ := exec_timers hx hF
    exact ⟨fun hne => hDT fun x e => hne w x hw (e ▸ hd), fun hne => hST fun x e => hne w x hw (e ▸ hd)⟩
  · obtain ⟨hDT, hST⟩ := ticked_preExecute s
    exact ⟨fun _ => hDT, fun _ => hST⟩

/-- A step that answers `t` and whose fetch gives the word of `i` is the meaning of `i`. -/
theorem exec_of_step {s t : State} {w : Word} {i : Instr} (h : step s = .next t) (hw : s.fetch = .ok w)
    (hd : decode w = .ok i) : exec i s = .next t :=
  step_of_fetch_decode (step_next_cases h).1 hw hd ▸ h

/-! ## The step of an unrecognized word -/

/-- 20_memory R42: the fetched word as the number its two bytes make, high byte first. -/
theorem State.fetch_eq_of_toNat {s : State} {a b : Nat} {w : Word}
    (ha : translateAddr s.cfg.addrPolicy s.pc.toNat = .ok a)
    (hb : translateAddr s.cfg.addrPolicy (s.pc.toNat + 1) = .ok b)
    (hw : w.toNat = (s.peek a).toNat * 256 + (s.peek b).toNat) : s.fetch = .ok w := by
  rw [State.fetch_of_translate ha hb, BitVec.eq_of_toNat_eq (hw.trans (wordOfBytes_toNat _ _).symm)]

/-- R69: the execute phase of a word that does not decode is empty. -/
theorem step_of_fetch_unrecognized {s : State} {w : Word} {e : DecodeReject} (hF : s.FAULT = none)
    (hw : s.fetch = .ok w) (hd : decode w = .error e) : step s = .next s.preExecute := by
  simp [step, engineStep, hF, runFetched, hw, runWord, hd, execNoOp, complete]

/-- What comes before the execute phase writes only `pc` and the timers. -/
theorem writesOnlyPc_preExecute (s : State) : WritesOnlyPc s s.preExecute :=
  ⟨fun _ _ => rfl, rfl, ticked_preExecute s, fun _ => rfl, ⟨rfl, rfl⟩, fun _ _ => rfl, ⟨rfl, rfl, rfl⟩⟩

end Sys2Proof.Machine

namespace Sys2Proof

open Machine

/-- Settles O13: the three instructions over a timer by their meanings, every other step by a case split on what it ran. -/
theorem timersCountDownOnceBeforeTheExecutePhase : Obligations.TimersCountDownOnceBeforeTheExecutePhase := by
  unfold Obligations.TimersCountDownOnceBeforeTheExecutePhase
  intro s t h hF
  refine ⟨fun w x hw hd => ?_, fun w x hw hd => ?_, fun w x hw hd => ?_, step_timers h hF⟩ <;>
    obtain rfl := Host.Outcome.next.inj (exec_of_step h hw hd)
  · rfl
  · rfl
  · rw [State.getV_setV_same]
    exact countDown_toNat s.DT

/-- Settles O7: the step is what comes before an execute phase, and nothing else. -/
theorem unrecognizedWordOnlyAdvancesPcAndTimers : Obligations.UnrecognizedWordOnlyAdvancesPcAndTimers := by
  unfold Obligations.UnrecognizedWordOnlyAdvancesPcAndTimers
  intro s a b w hF ha hb hw hd
  exact ⟨s.preExecute, step_of_fetch_unrecognized hF (State.fetch_eq_of_toNat ha hb hw) hd, rfl,
    writesOnlyPc_preExecute s⟩

end Sys2Proof

/-! PROOFS. Control flow (41_control_flow R76, R78 to R81): jumps, skips, and the skips' spellings that are no-ops. -/

namespace Sys2Proof

/-! ## Words with a first nibble of 5 or 9 (R60) -/

/-- Every row of the dispatch map fixes all of the first nibble. -/
theorem rows_fix_first_nibble : ∀ r ∈ opcodeRows, r.mask.toNat / 0x1000 = 0xF := by decide

/-- A word shares its first nibble with every row that hits it. -/
theorem first_nibble_of_hits {r : Row} {w : Word} (hr : r ∈ opcodeRows)
    (hit : w.toNat &&& r.mask.toNat = r.pattern.toNat) : r.pattern.toNat / 0x1000 = w.toNat / 0x1000 := by
  have hlt : w.toNat / 2 ^ 12 < 0x10 := Nat.div_lt_of_lt_mul w.isLt
  calc r.pattern.toNat / 2 ^ 12 = w.toNat / 2 ^ 12 &&& r.mask.toNat / 2 ^ 12 := by rw [← hit, Nat.and_div_two_pow]
    _ = w.toNat / 2 ^ 12 &&& 0xF := congrArg _ (rows_fix_first_nibble r hr)
    _ = w.toNat / 2 ^ 12 := by rw [land_low4, Nat.mod_eq_of_lt hlt]

/-- Where the rows of a first nibble ask for a last nibble of 0, every other last nibble is unrecognized. -/
theorem decode_unrecognized_of_last_nibble {w : Word}
    (hrows : ∀ r ∈ opcodeRows, r.pattern.toNat / 0x1000 = w.toNat / 0x1000 →
      r.mask.toNat = 0xF00F ∧ r.pattern.toNat % 0x10 = 0)
    (hd : w.toNat % 0x10 ≠ 0) : decode w = .error (.unrecognized w) := by
  refine decode_unrecognized.2 fun r hr hit => hd ?_
  obtain ⟨hmask, hpattern⟩ := hrows r hr (first_nibble_of_hits hr hit)
  rw [← hit, hmask, land_F00F] at hpattern
  omega

end Sys2Proof

namespace Sys2Proof.Machine

/-! ## Effects on `pc` alone -/

theorem writesOnlyPc_setPc (s : State) (a : Word) : WritesOnlyPc s (s.preExecute.setPc a) :=
  writesOnlyPc_preExecute s

theorem writesOnlyPc_skipIf (s : State) (c : Bool) : WritesOnlyPc s (s.preExecute.skipIf c) := by
  rw [State.skipIf_eq]
  exact writesOnlyPc_setPc s _

/-- R78: the skip's 2 on top of the pre-advance. -/
theorem skipIf_preExecute_pc (s : State) (c : Bool) :
    (s.preExecute.skipIf c).pc = s.pc + if c then 4#16 else 2#16 := by
  rw [State.skipIf_eq, State.preExecute_pc, BitVec.add_assoc]
  cases c <;> rfl

/-- A meaning that is a skip, with its net advance given as `n`. -/
theorem exec_skip_net_advance {s : State} {i : Instr} {c : Bool} {n : Word}
    (h : exec i s = .next (s.preExecute.skipIf c)) (hn : (if c then 4#16 else 2#16) = n) :
    ∃ t, exec i s = .next t ∧ WritesOnlyPc s t ∧ t.pc = s.pc + n :=
  ⟨_, h, writesOnlyPc_skipIf s c, hn ▸ skipIf_preExecute_pc s c⟩

/-- R69: a word that matches no row is a no-op. -/
theorem noOpWord_of_unrecognized (s : State) {w : Nat}
    (h : decode (BitVec.ofNat 16 w) = .error (.unrecognized (BitVec.ofNat 16 w))) : NoOpWord s w := by
  refine ⟨h, s.preExecute, ?_, rfl, writesOnlyPc_preExecute s⟩
  rw [runWord, h]
  rfl

/-- The words of a skip's format with a last nibble of `d`: `p` is the match of the skip's row, the one row of its
first nibble. Where the lemma is used, its last two arguments compute that from the dispatch map. -/
theorem noOpWord_XYD {p : Nat} (s : State) (x y : Reg) {d : Fin 16} (hd : d.val ≠ 0)
    (hp : p < 0x10000 ∧ p % 0x1000 = 0 := by decide)
    (hrows : ∀ r ∈ opcodeRows, r.pattern.toNat / 0x1000 = p / 0x1000 →
      r.mask.toNat = 0xF00F ∧ r.pattern.toNat % 0x10 = 0 := by decide) :
    NoOpWord s (p + 0x100 * x.val + 0x10 * y.val + d.val) := by
  apply noOpWord_of_unrecognized
  apply decode_unrecognized_of_last_nibble
  · rw [BitVec.toNat_ofNat, show (p + 0x100 * x.val + 0x10 * y.val + d.val) % 2 ^ 16 / 0x1000 = p / 0x1000 by omega]
    exact hrows
  · rw [BitVec.toNat_ofNat]
    omega

end Sys2Proof.Machine

namespace Sys2Proof

open Machine

/-- Settles O21: the jump's meaning is one write of `pc`. -/
theorem jumpGoesToItsAddress : Obligations.JumpGoesToItsAddress := by
  unfold Obligations.JumpGoesToItsAddress
  intro s nnn
  exact ⟨decodesTo_NNN nnn, _, exec_jp s nnn, zextAddr_toNat nnn, writesOnlyPc_setPc s _⟩

/-- Settles O23: the four meanings are skips, and `5xy0` and `9xy0` are the only rows with a first nibble of 5 or 9. -/
theorem skipsAdvanceByFourWhenTheirConditionHolds : Obligations.SkipsAdvanceByFourWhenTheirConditionHolds := by
  unfold Obligations.SkipsAdvanceByFourWhenTheirConditionHolds
  intro s x y nn
  refine ⟨⟨decodesTo_XNN x nn, exec_skip_net_advance (exec_seImm s x nn) ?_⟩,
    ⟨decodesTo_XNN x nn, exec_skip_net_advance (exec_sneImm s x nn) ?_⟩,
    ⟨decodesTo_XY x y, exec_skip_net_advance (exec_seReg s x y) ?_⟩,
    ⟨decodesTo_XY x y, exec_skip_net_advance (exec_sneReg s x y) ?_⟩,
    fun d hd => ⟨noOpWord_XYD s x y hd, noOpWord_XYD s x y hd⟩⟩
  · simp only [beq_iff_eq]
  · simp only [bne_iff_ne, ite_not]
  · simp only [beq_iff_eq]
  · simp only [bne_iff_ne, ite_not]

end Sys2Proof

/-! PROOFS. Registers and ALU (42_alu R83 to R88): the loads, the immediate add and the bitwise operations, which write
one register and no flag. -/

namespace Sys2Proof.Machine

/-- An effect that writes one register leaves everything else as it was before the execute phase. -/
theorem writesOnlyRegs_setV (s : State) (x : Reg) (b : Byte) : WritesOnlyRegs [x] s (s.preExecute.setV x b) := by
  obtain ⟨-, frame⟩ := writesOnlyPc_preExecute s
  exact ⟨fun r hr => State.getV_setV_of_ne s.preExecute b (List.ne_of_not_mem_cons hr), frame⟩

end Sys2Proof.Machine

namespace Sys2Proof

open Machine

/-- Settles O14: both meanings are one register write. -/
theorem loadsPutImmediateOrRegisterInVx : Obligations.LoadsPutImmediateOrRegisterInVx := by
  unfold Obligations.LoadsPutImmediateOrRegisterInVx
  intro s x y nn
  exact ⟨⟨decodesTo_XNN x nn, _, exec_ldImm s x nn, State.getV_setV_same _ x nn, writesOnlyRegs_setV s x nn⟩,
    ⟨decodesTo_XY x y, _, exec_ldReg s x y, State.getV_setV_same _ x _, writesOnlyRegs_setV s x _⟩⟩

/-- Settles O15: the meaning is one register write, of the sum modulo 256. -/
theorem addImmediateWrapsAndSetsNoFlag : Obligations.AddImmediateWrapsAndSetsNoFlag := by
  unfold Obligations.AddImmediateWrapsAndSetsNoFlag
  intro s x nn
  refine ⟨decodesTo_XNN x nn, _, exec_addImm s x nn, ?_, writesOnlyRegs_setV s x _⟩
  rw [State.getV_setV_same]
  exact addResult_toNat (s.getV x) nn

/-- Settles O16: each meaning is one register write, of a byte whose bit `k` depends on the operands' bits `k` alone. -/
theorem logicWorksBitByBitAndSetsNoFlag : Obligations.LogicWorksBitByBitAndSetsNoFlag := by
  unfold Obligations.LogicWorksBitByBitAndSetsNoFlag
  intro s x y
  refine ⟨⟨decodesTo_XY x y, _, exec_orReg s x y, writesOnlyRegs_setV s x _, fun k => ?_⟩,
    ⟨decodesTo_XY x y, _, exec_andReg s x y, writesOnlyRegs_setV s x _, fun k => ?_⟩,
    ⟨decodesTo_XY x y, _, exec_xorReg s x y, writesOnlyRegs_setV s x _, fun k => ?_⟩⟩ <;>
    rw [State.getV_setV_same]
  · exact BitVec.getLsbD_or
  · exact BitVec.getLsbD_and
  · exact BitVec.getLsbD_xor

end Sys2Proof

/-! PROOFS. Index register and memory (43_index_memory R96): the load of the index register. -/

namespace Sys2Proof.Machine

/-- An effect that writes the index register leaves everything else as it was before the execute phase. -/
theorem writesOnlyI_setI (s : State) (a : Word) : WritesOnlyI s (s.preExecute.setI a) := by
  obtain ⟨regs, -, ticked, storage⟩ := writesOnlyPc_preExecute s
  exact ⟨regs, ticked, storage⟩

end Sys2Proof.Machine

namespace Sys2Proof

open Machine

/-- Settles O29: the meaning is one write of the index register, of the zero-extended address. -/
theorem loadIndexPutsTheAddressInI : Obligations.LoadIndexPutsTheAddressInI := by
  unfold Obligations.LoadIndexPutsTheAddressInI
  intro s nnn
  exact ⟨decodesTo_NNN nnn, _, exec_ldI s nnn, zextAddr_toNat nnn, writesOnlyI_setI s _⟩

end Sys2Proof

/-! PROOFS. Display (44_display R102): the clear. -/

namespace Sys2Proof

open Machine

/-- Settles O38: the meaning replaces the display by the blank one, so the frame is that of what comes before the
execute phase, less the display. -/
theorem clearDisplayUnlightsEveryCell : Obligations.ClearDisplayUnlightsEveryCell := by
  unfold Obligations.ClearDisplayUnlightsEveryCell
  intro s
  obtain ⟨regs, index, ticked, memory, stack, -, control⟩ := writesOnlyPc_preExecute s
  exact ⟨rfl, _, exec_cls s, Display.lit_blank, regs, index, ticked, memory, stack, control⟩

end Sys2Proof

/-! PROOFS. Keys and timers (45_keys_timers R108): the write of the delay timer. -/

namespace Sys2Proof

open Machine

/-- Settles O45: the meaning writes `V[x]` over the delay timer after the count-down, so the frame is that of what comes
before the execute phase, less that timer. -/
theorem setDelayTimerWritesVxUndecremented : Obligations.SetDelayTimerWritesVxUndecremented := by
  unfold Obligations.SetDelayTimerWritesVxUndecremented
  intro s x
  obtain ⟨regs, index, ⟨-, countedDown⟩, storage⟩ := writesOnlyPc_preExecute s
  exact ⟨decodesTo_X x, _, exec_ldDTVx s x, rfl, countedDown, regs, index, storage⟩

end Sys2Proof

/-! PROOFS. The encoder against the decoder (30_encoding R56, R58, R60): each undoes the other, and the words without a
row. -/

namespace Sys2Proof

/-! ## The word of an instruction as a number -/

/-- The family `EncodeValue`, over all instructions. -/
theorem encode_toNat : ∀ i : Instr, (encode i).toNat = Laws.wordNumber i
  | .cls => Laws.EncodeValue.cls
  | .ret => Laws.EncodeValue.ret
  | .sys nnn => Laws.EncodeValue.sys nnn
  | .jp nnn => Laws.EncodeValue.jp nnn
  | .call nnn => Laws.EncodeValue.call nnn
  | .seImm x nn => Laws.EncodeValue.seImm x nn
  | .sneImm x nn => Laws.EncodeValue.sneImm x nn
  | .seReg x y => Laws.EncodeValue.seReg x y
  | .ldImm x nn => Laws.EncodeValue.ldImm x nn
  | .addImm x nn => Laws.EncodeValue.addImm x nn
  | .ldReg x y => Laws.EncodeValue.ldReg x y
  | .orReg x y => Laws.EncodeValue.orReg x y
  | .andReg x y => Laws.EncodeValue.andReg x y
  | .xorReg x y => Laws.EncodeValue.xorReg x y
  | .addReg x y => Laws.EncodeValue.addReg x y
  | .subReg x y => Laws.EncodeValue.subReg x y
  | .shrReg x y => Laws.EncodeValue.shrReg x y
  | .subnReg x y => Laws.EncodeValue.subnReg x y
  | .shlReg x y => Laws.EncodeValue.shlReg x y
  | .sneReg x y => Laws.EncodeValue.sneReg x y
  | .ldI nnn => Laws.EncodeValue.ldI nnn
  | .jpV0 nnn => Laws.EncodeValue.jpV0 nnn
  | .rnd x nn => Laws.EncodeValue.rnd x nn
  | .drw x y n => Laws.EncodeValue.drw x y n
  | .skp x => Laws.EncodeValue.skp x
  | .sknp x => Laws.EncodeValue.sknp x
  | .ldVxDT x => Laws.EncodeValue.ldVxDT x
  | .ldVxK x => Laws.EncodeValue.ldVxK x
  | .ldDTVx x => Laws.EncodeValue.ldDTVx x
  | .ldSTVx x => Laws.EncodeValue.ldSTVx x
  | .addIVx x => Laws.EncodeValue.addIVx x
  | .ldFVx x => Laws.EncodeValue.ldFVx x
  | .ldBVx x => Laws.EncodeValue.ldBVx x
  | .storeRegs x => Laws.EncodeValue.storeRegs x
  | .loadRegs x => Laws.EncodeValue.loadRegs x

theorem encode_eq_ofNat (i : Instr) : encode i = BitVec.ofNat 16 (Laws.wordNumber i) := by
  rw [← encode_toNat, BitVec.ofNat_toNat, BitVec.setWidth_eq]

/-! ## Decoding an encoding -/

/-- The two instructions that are not well-formed are the spellings of `0nnn` that R59 gives to other rows. -/
theorem Instr.wellFormed_sys {nnn : Addr12} :
    (Instr.sys nnn).wellFormed = true ↔ nnn.toNat ≠ 0x0E0 ∧ nnn.toNat ≠ 0x0EE := by
  simp [Instr.wellFormed, ← BitVec.toNat_inj]

/-- R58, R59: the number of a well-formed instruction's word decodes to it, format by format. -/
theorem decodesTo_wordNumber {i : Instr} (h : i.wellFormed = true) : Machine.DecodesTo (Laws.wordNumber i) i := by
  cases i with
  | cls | ret => rfl
  | sys nnn =>
    obtain ⟨hcls, hret⟩ := Instr.wellFormed_sys.1 h
    rw [Laws.wordNumber, Nat.zero_add]
    exact decodesTo_sys hcls hret
  | jp nnn | call nnn | ldI nnn | jpV0 nnn => exact decodesTo_NNN nnn
  | seImm x nn | sneImm x nn | ldImm x nn | addImm x nn | rnd x nn => exact decodesTo_XNN x nn
  | drw x y n => exact decodesTo_XYN x y n
  | seReg x y | ldReg x y | orReg x y | andReg x y | xorReg x y | addReg x y | subReg x y | shrReg x y | subnReg x y
  | shlReg x y | sneReg x y => exact decodesTo_XY x y
  | skp x | sknp x | ldVxDT x | ldVxK x | ldDTVx x | ldSTVx x | addIVx x | ldFVx x | ldBVx x | storeRegs x
  | loadRegs x => exact decodesTo_X x

/-- Settles O1: the encoding is the number of the instruction's row and fields, and that number decodes to it. -/
theorem decodeOfEncodeIsTheInstruction : Obligations.DecodeOfEncodeIsTheInstruction := by
  unfold Obligations.DecodeOfEncodeIsTheInstruction
  intro i h
  rw [encode_eq_ofNat]
  exact decodesTo_wordNumber h

/-! ## Encoding what a word decodes to -/

/-- A word that decodes is hit by a row, and decodes to what the row builds. -/
theorem row_of_decode {w : Word} {i : Instr} (h : decode w = .ok i) :
    ∃ r ∈ opcodeRows, r.hits w = true ∧ r.build w = i := by
  unfold decode at h
  split at h
  · rename_i r hr
    exact ⟨r, List.mem_of_find?_eq_some hr, by simpa using List.find?_some hr, Except.ok.inj h⟩
  · simp at h

/-- A word is what the encoder makes of the instruction a row builds from it, whenever the row hits it. -/
def Row.EncodesBack (r : Row) : Prop := ∀ w : Word, r.hits w = true → encode (r.build w) = w

theorem Row.encodesBack_of_number {m p : Nat} {build : Word → Instr}
    (h : ∀ w : Word, w.toNat &&& m % 0x10000 = p % 0x10000 → Laws.wordNumber (build w) = w.toNat) :
    Row.EncodesBack ⟨BitVec.ofNat 16 m, BitVec.ofNat 16 p, build⟩ := by
  intro w hit
  rw [Row.hits_eq, decide_eq_true_eq, BitVec.toNat_ofNat, BitVec.toNat_ofNat] at hit
  rw [← BitVec.toNat_inj, encode_toNat]
  exact h w hit

/-- R56, R58: the mask of every row leaves open exactly the bits its operands' fields take. -/
theorem rows_encodeBack : ∀ r ∈ opcodeRows, r.EncodesBack := by
  simp only [opcodeRows, rowsControl, rowsAlu, rowsIndexDisplayKeys, rowsF, List.cons_append, List.nil_append,
    List.forall_mem_cons, List.not_mem_nil, false_imp_iff, implies_true, and_true]
  and_intros <;>
  · refine Row.encodesBack_of_number fun w hit => ?_
    have := w.isLt
    simp only [buildNNN, buildXNN, buildXY, buildXYN, buildX, Laws.wordNumber, fieldX_val, fieldY_val, fieldN_val,
      fieldNN_toNat, fieldNNN_toNat, Nat.reduceMod, land_F000, land_F00F, land_F0FF, land_FFFF] at hit ⊢
    omega

/-- Settles O2: the row that hits a word encodes it back, and `0nnn` with the number of an exact word never comes out of
the decoder, because that word decodes otherwise. -/
theorem encodeOfDecodeIsTheWord : Obligations.EncodeOfDecodeIsTheWord := by
  unfold Obligations.EncodeOfDecodeIsTheWord
  intro w i h
  obtain ⟨r, hr, hit, rfl⟩ := row_of_decode h
  have hw : encode (r.build w) = w := rows_encodeBack r hr w hit
  refine ⟨hw, ?_⟩
  generalize r.build w = i at h hw
  subst hw
  cases i with
  | sys nnn =>
    refine Instr.wellFormed_sys.2 ⟨fun hcls => ?_, fun hret => ?_⟩
    · obtain rfl : nnn = 0x0E0#12 := BitVec.eq_of_toNat_eq hcls
      cases h
    · obtain rfl : nnn = 0x0EE#12 := BitVec.eq_of_toNat_eq hret
      cases h
  | _ => rfl

/-! ## Words without a row -/

/-- A row hits a word when it shares its first nibble and, under the rest of the mask, its last twelve bits. -/
theorem hits_iff_first_nibble {r : Row} {w : Word} (hr : r ∈ opcodeRows) :
    w.toNat &&& r.mask.toNat = r.pattern.toNat ↔
      w.toNat / 0x1000 = r.pattern.toNat / 0x1000 ∧
        w.toNat % 0x1000 &&& r.mask.toNat % 0x1000 = r.pattern.toNat % 0x1000 := by
  have hlow : (w.toNat &&& r.mask.toNat) % 0x1000 = w.toNat % 0x1000 &&& r.mask.toNat % 0x1000 :=
    Nat.and_mod_two_pow (n := 12)
  have hhigh : (w.toNat &&& r.mask.toNat) / 0x1000 = w.toNat / 0x1000 := by
    have hlt : w.toNat / 0x1000 < 0x10 := Nat.div_lt_of_lt_mul w.isLt
    calc (w.toNat &&& r.mask.toNat) / 2 ^ 12 = w.toNat / 0x1000 &&& r.mask.toNat / 0x1000 := Nat.and_div_two_pow
      _ = w.toNat / 0x1000 &&& 0xF := by rw [rows_fix_first_nibble r hr]
      _ = w.toNat / 0x1000 := by rw [land_low4, Nat.mod_eq_of_lt hlt]
  omega

/-- Settles O4: the rows of each first nibble, as conditions on the last nibble or the low byte. -/
theorem unrecognizedWordsAreExactlyThese : Obligations.UnrecognizedWordsAreExactlyThese := by
  unfold Obligations.UnrecognizedWordsAreExactlyThese
  intro w
  have ha : w.toNat / 0x1000 < 16 := Nat.div_lt_of_lt_mul w.isLt
  have hd : w.toNat % 0x10 < 16 := Nat.mod_lt _ (by decide)
  have hrows := decode_unrecognized (w := w).trans (forall₂_congr fun r hr => (hits_iff_first_nibble hr).not)
  rw [hrows]
  simp only [opcodeRows, rowsControl, rowsAlu, rowsIndexDisplayKeys, rowsF, List.cons_append, List.nil_append,
    List.forall_mem_cons, BitVec.toNat_ofNat, Nat.reducePow, Nat.reduceMod, Nat.reduceDiv, land_low4, land_low8,
    Nat.and_zero]
  rw [Nat.mod_mod_of_dvd _ (by decide : 0x10 ∣ 0x1000), Nat.mod_mod_of_dvd _ (by decide : 0x100 ∣ 0x1000)]
  generalize w.toNat / 0x1000 = a at *
  generalize w.toNat % 0x10 = d at *
  interval_cases a <;> simp
  -- What is left is the first nibble 8, of which the rows and the statement list complementary last nibbles.
  omega

/-- Settles O5: each word's row is found and its fields are read off by evaluating the decoder. -/
theorem sampleWordsDecodeAsTheSpecSays : Obligations.SampleWordsDecodeAsTheSpecSays := by
  unfold Obligations.SampleWordsDecodeAsTheSpecSays
  and_intros <;> rfl

end Sys2Proof

/-! PROOFS. Taking a fault (60_exceptions R110 to R113): blocks that leave memory, the stack's two ends, `0nnn`, and key
numbers above 15. -/

namespace Sys2Proof.Machine

/-! ## The record -/

/-- R113, and log 9: the recorded opcode is the number of the instruction's row and fields. -/
theorem faultTaken_latchFault (s : State) (k : FaultKind) (i : Instr) :
    FaultTaken s (s.latchFault k (some (encode i))) k (some (Laws.wordNumber i)) := by
  rw [FaultTaken, encode_eq_ofNat]
  rfl

/-! ## Blocks at `I` -/

/-- R39, R40, R112: translating a block, in full. -/
theorem translateBlock_eq (p : AddrPolicy) (a n : Nat) :
    translateBlock p a n =
      if p = .fault ∧ 0 < n ∧ 4096 < a + n then .error (.memoryOutOfRange (max a 4096))
      else .ok ((List.range n).map fun k => (a + k) % 4096) := by
  cases h : translateBlock p a n with
  | error k =>
    obtain ⟨hp, hn, hlt, rfl⟩ := translateBlock_error h
    exact (if_pos ⟨hp, hn, hlt⟩).symm
  | ok is =>
    obtain rfl := translateBlock_ok h
    refine (if_neg ?_).symm
    rintro ⟨rfl, hn, hlt⟩
    rcases translateBlock_range h with hp | rfl | hle
    · cases hp
    · cases hn
    · exact absurd hle (Nat.not_le.2 hlt)

theorem State.indexBlock_of_blockFaults {s : State} {n : Nat} (h : BlockFaults s s.I.toNat n) :
    s.indexBlock n = .error (.memoryOutOfRange (max s.I.toNat 4096)) :=
  (translateBlock_eq _ _ _).trans (if_pos h)

theorem State.not_blockFaults_of_indexBlock {s : State} {n : Nat} {is : List Nat} (h : s.indexBlock n = .ok is) :
    ¬ BlockFaults s s.I.toNat n :=
  fun hb => nomatch h.symm.trans (State.indexBlock_of_blockFaults hb)

theorem State.indexBlock_error {s : State} {n : Nat} {k : FaultKind} (h : s.indexBlock n = .error k) :
    BlockFaults s s.I.toNat n ∧ k = .memoryOutOfRange (max s.I.toNat 4096) := by
  obtain ⟨hp, hn, hlt, hk⟩ := translateBlock_error h
  exact ⟨⟨hp, hn, hlt⟩, hk⟩

end Sys2Proof.Machine

namespace Sys2Proof

open Machine

/-- Settles O32: the translation in full, put together from what it says when it succeeds and when it faults. -/
theorem blockTranslationWrapsOrFaultsAtTheLowestAddress :
    Obligations.BlockTranslationWrapsOrFaultsAtTheLowestAddress := translateBlock_eq

/-- Settles O36: the four meanings take the fault their block's translation raises. -/
theorem blockOutsideMemoryFaultsWithoutEffect : Obligations.BlockOutsideMemoryFaultsWithoutEffect := by
  unfold Obligations.BlockOutsideMemoryFaultsWithoutEffect
  intro s
  refine ⟨fun x y n h => ⟨_, execDrw_next.2 (.inr ⟨_, State.indexBlock_of_blockFaults h, rfl⟩), ?_⟩,
    fun x h => ⟨_, execLdBVx_next.2 (.inr ⟨_, State.indexBlock_of_blockFaults h, rfl⟩), ?_⟩,
    fun x h => ⟨_, execStoreRegs_next.2 (.inr ⟨_, State.indexBlock_of_blockFaults h, rfl⟩), ?_⟩,
    fun x h => ⟨_, execLoadRegs_next.2 (.inr ⟨_, State.indexBlock_of_blockFaults h, rfl⟩), ?_⟩⟩ <;>
  exact faultTaken_latchFault s _ _

/-- Settles O26: a push onto a full stack and a pop from an empty one raise. -/
theorem stackFaultsAtItsEnds : Obligations.StackFaultsAtItsEnds := by
  unfold Obligations.StackFaultsAtItsEnds
  exact ⟨fun s nnn h => ⟨_, execCall_next.2 (.inr ⟨h, rfl⟩), faultTaken_latchFault s _ _⟩,
    fun s h => ⟨_, execRet_next.2 (.inr ⟨h, rfl⟩), faultTaken_latchFault s _ _⟩⟩

/-- Settles O27: the meaning is its fault entry. -/
theorem sysTakesUnsupportedInstruction : Obligations.SysTakesUnsupportedInstruction := by
  unfold Obligations.SysTakesUnsupportedInstruction
  intro s nnn
  refine ⟨_, execSys_next.2 rfl, ?_⟩
  rw [← Nat.zero_add nnn.toNat]
  exact faultTaken_latchFault s _ _

/-- Settles O42: there is no key of such a number. -/
theorem keySkipsFaultOnKeyNumbersAbove15 : Obligations.KeySkipsFaultOnKeyNumbersAbove15 := by
  unfold Obligations.KeySkipsFaultOnKeyNumbersAbove15
  intro s x hx hp
  have hk : keyNumber s.cfg.keyIndexPolicy (s.getV x) = .error (.keyIndexOutOfRange (s.getV x)) := by
    simp [keyNumber, Nat.not_lt.2 hx, hp]
  exact ⟨⟨_, execSkp_next.2 (.inr ⟨_, hk, rfl⟩), faultTaken_latchFault s _ _⟩,
    ⟨_, execSknp_next.2 (.inr ⟨_, hk, rfl⟩), faultTaken_latchFault s _ _⟩⟩

end Sys2Proof

/-! PROOFS. The step (40_cycle R64 to R71): when it is enabled, what it runs, and the fetch that faults. -/

namespace Sys2Proof.Machine

/-- R65: the step whose fetch faults. -/
theorem step_of_fetch_error {s : State} {k : FaultKind} (hF : s.FAULT = none) (hk : s.fetch = .error k) :
    step s = .next (s.latchFault k none) := by
  simp [step, engineStep, hF, runFetched, hk]

theorem step_of_fetch {s : State} {w : Word} (hF : s.FAULT = none) (hw : s.fetch = .ok w) :
    step s = runWord w s := by
  simp [step, engineStep, hF, runFetched, hw]

/-- Running any word answers a next state (R68, R69). -/
theorem runWord_answers_next (w : Word) (s : State) : ∃ t, runWord w s = .next t := by
  unfold runWord
  split
  · exact exec_answers_next _ s
  · exact ⟨_, rfl⟩

/-- A core that is not halted steps (R64). -/
theorem step_answers_next {s : State} (hF : s.FAULT = none) : ∃ t, step s = .next t := by
  cases hw : s.fetch with
  | error k => exact ⟨_, step_of_fetch_error hF hw⟩
  | ok w => exact step_of_fetch hF hw ▸ runWord_answers_next w s

/-- The one stop of the model is the step of a halted core (R114). -/
theorem step_fault {s : State} {f : Fault} (h : step s = .fault f) : ∃ r, s.FAULT = some r ∧ f = .halted r := by
  cases hF : s.FAULT with
  | none =>
    obtain ⟨t, ht⟩ := step_answers_next hF
    exact nomatch ht.symm.trans h
  | some r => exact ⟨r, rfl, (Host.Outcome.fault.inj ((step_halted hF).symm.trans h)).symm⟩

end Sys2Proof.Machine

namespace Sys2Proof

open Machine

/-- Settles O6: the two bytes are the fetched word. -/
theorem stepRunsTheDecodedInstruction : Obligations.StepRunsTheDecodedInstruction := by
  unfold Obligations.StepRunsTheDecodedInstruction
  intro s i a b w hF ha hb hw hd
  exact step_of_fetch_decode hF (State.fetch_eq_of_toNat ha hb hw) hd

/-- Settles O8: the fetch faults, and a fault at fetch has no opcode. -/
theorem fetchOutsideMemoryFaults : Obligations.FetchOutsideMemoryFaults := by
  unfold Obligations.FetchOutsideMemoryFaults
  intro s hF hp hpc
  exact ⟨_, step_of_fetch_error hF (State.fetch_outside hp hpc), rfl⟩

/-- Settles O9: a core that is not halted answers a next state whatever it fetches, and a halted one does not step. -/
theorem stepIsEnabledExactlyWhenNotHalted : Obligations.StepIsEnabledExactlyWhenNotHalted := by
  unfold Obligations.StepIsEnabledExactlyWhenNotHalted
  exact fun s => ⟨⟨fun ⟨t, ht⟩ => (step_next_cases ht).1, step_answers_next⟩, fun r => step_halted⟩

end Sys2Proof

/-! PROOFS. What an instruction can do, said once: it completes, and writes at most what 10_state R22 and R33 list for it,
or it takes the fault 60_exceptions R110 lists for it. The invariants of every step follow. -/

namespace Sys2Proof.Machine

/-! ## The two ends of an instruction -/

/-- The instruction `i` runs from `s` to `t` without a fault. A field states what `i` may do to one part of the state; its
default is the proof for an instruction that leaves that part as it was before the execute phase. -/
structure Completes (s : State) (i : Instr) (t : State) : Prop where
  notRaised : ¬ Raises s i := by exact id
  pc : t.pc.toNat = pcAfter s i := by rfl
  regs : SameRegsBut (destRegs i) s t := by exact fun _ _ => rfl
  index : t.I = s.I ∨ (∃ nnn, i = .ldI nnn) ∨ (∃ x, i = .addIVx x) ∨ (∃ x, i = .ldFVx x) ∨
    (∃ x, i = .storeRegs x) ∨ ∃ x, i = .loadRegs x := by exact .inl rfl
  memory : t.MEM = s.MEM ∨ ((∃ x, i = .ldBVx x) ∨ ∃ x, i = .storeRegs x) ∧
    ∃ is bs, (∀ j ∈ is, j < memSize) ∧ t.MEM = (State.pokeAll is bs s).MEM := by exact .inl rfl
  stack : SameStack s t ∨ i = .ret ∨ ∃ nnn, i = .call nnn := by exact .inl ⟨rfl, rfl⟩
  slots : ∀ k : Fin 16, t.STACK[k.val] = s.STACK[k.val] ∨ t.STACK[k.val] = s.pc + 2#16 := by exact fun _ => .inl rfl
  display : t.DISP = s.DISP ∨ i = .cls ∨ ∃ x y n, i = .drw x y n := by exact .inl rfl
  keys : t.KEY = s.KEY := by rfl
  latch : t.FAULT = s.FAULT := by rfl
  cfg : t.cfg = s.cfg := by rfl

/-- The instruction `i` takes the fault `k` in `s`, and `t` is the state after the fault entry. -/
structure TakesFault (s : State) (i : Instr) (t : State) (k : FaultKind) : Prop where
  raised : Raises s i
  latched : t = s.latchFault k (some (encode i))
  recordTrue : i.wellFormed = true → FaultRecordTrue s ⟨k, some (encode i), s.pc⟩

/-! ## Effects of shared operations -/

/-- R82: the target of `Bnnn` is below 2^16 without a reduction. -/
theorem zextAddr_add_zextByte_toNat (nnn : Addr12) (b : Byte) :
    (zextAddr nnn + zextByte b).toNat = nnn.toNat + b.toNat := by
  rw [BitVec.toNat_add, zextAddr_toNat, zextByte_toNat]
  omega

theorem sameRegsBut_setVWithFlag (s : State) (x : Reg) (r f : Byte) :
    SameRegsBut [x, VF] s (s.preExecute.setVWithFlag x r f) := by
  intro q hq
  obtain ⟨hx, hF⟩ := List.ne_and_not_mem_of_not_mem_cons hq
  exact State.getV_setVWithFlag_other s.preExecute r f hx (List.ne_of_not_mem_cons hF)

theorem sameRegsBut_loadRegs {s : State} {x : Reg} {bs : List Byte} (h : bs.length = x.val + 1) :
    SameRegsBut (destRegs (.loadRegs x)) s (State.setRegsFrom 0 bs s) := by
  intro r hr
  have hlt : x.val < r.val := by simpa [destRegs] using hr
  rw [State.getV_setRegsFrom, List.getElem?_eq_none (by omega)]
  simp

theorem completes_skip {s : State} {i : Instr} {c : Bool} (hr : ¬ Raises s i) (hpc : pcAfter s i = skipTarget s c) :
    Completes s i (s.preExecute.skipIf c) := by
  have hskip : (s.preExecute.skipIf c).pc.toNat = skipTarget s c := by
    rw [skipIf_preExecute_pc]
    cases c <;> rfl
  rw [State.skipIf_eq] at hskip ⊢
  exact { notRaised := hr, pc := hskip.trans hpc.symm }

theorem takesFault_block {s : State} {i : Instr} {n : Nat} {k : FaultKind} (h : s.indexBlock n = .error k)
    (hi : Raises s i ↔ BlockFaults s s.I.toNat n) : TakesFault s i (s.latchFault k (some (encode i))) k := by
  obtain ⟨hb, rfl⟩ := State.indexBlock_error h
  exact ⟨hi.2 hb, rfl, fun _ => ⟨rfl, hb.1, Nat.le_max_right _ _⟩⟩

theorem takesFault_key {s : State} {i : Instr} {x : Reg} {k : FaultKind}
    (h : keyNumber s.cfg.keyIndexPolicy (s.getV x) = .error k)
    (hi : Raises s i ↔ s.cfg.keyIndexPolicy = .fault ∧ 16 ≤ (s.getV x).toNat)
    (hw : Laws.wordNumber i / 0x1000 = 0xE) : TakesFault s i (s.latchFault k (some (encode i))) k := by
  obtain ⟨hp, hx, rfl⟩ := keyNumber_error h
  exact ⟨hi.2 ⟨hp, hx⟩, rfl, fun _ => ⟨rfl, hp, hx, _, rfl, by rw [encode_toNat, hw]⟩⟩

/-- A key number that is one names the key the statements look at. -/
theorem keyLooked_of_keyNumber {s : State} {x : Reg} {k : Fin 16}
    (h : keyNumber s.cfg.keyIndexPolicy (s.getV x) = .ok k) : keyLooked s x = s.keyDown k := by
  rw [keyLooked]
  congr 1
  exact Fin.ext (keyNumber_ok h).1.symm

theorem not_key_raises {s : State} {x : Reg} {k : Fin 16} (h : keyNumber s.cfg.keyIndexPolicy (s.getV x) = .ok k) :
    ¬ (s.cfg.keyIndexPolicy = .fault ∧ 16 ≤ (s.getV x).toNat) := by
  rintro ⟨hp, hx⟩
  rcases (keyNumber_ok h).2 with hlt | hp'
  · omega
  · simp [hp] at hp'

/-! ## Every instruction -/

/-- All an instruction can do. -/
theorem exec_completes_or_takesFault {s t : State} {i : Instr} (h : exec i s = .next t) :
    Completes s i t ∨ ∃ k, TakesFault s i t k := by
  cases i with
  | sys nnn =>
    refine .inr ⟨_, trivial, execSys_next.1 h, fun hwf => ⟨rfl, _, rfl, ?_⟩⟩
    obtain ⟨hcls, hret⟩ := Instr.wellFormed_sys.1 hwf
    rw [encode_toNat, Laws.wordNumber]
    omega
  | call nnn =>
    obtain ⟨hlt, rfl⟩ | ⟨hfull, rfl⟩ := execCall_next.1 h
    · refine .inl { notRaised := hlt.ne, pc := zextAddr_toNat nnn, stack := .inr (.inr ⟨nnn, rfl⟩), slots := fun k => ?_ }
      rw [Vector.getElem_set]
      split
      · exact .inr rfl
      · exact .inl rfl
    · refine .inr ⟨_, hfull, rfl, fun _ => ⟨rfl, rfl, hfull, _, rfl, ?_⟩⟩
      rw [encode_toNat, Laws.wordNumber]
      omega
  | ret =>
    obtain ⟨hpos, rfl⟩ | ⟨hempty, rfl⟩ := execRet_next.1 h
    · exact .inl { notRaised := hpos.ne', pc := by rw [pcAfter, dif_pos hpos], stack := .inr (.inl rfl) }
    · exact .inr ⟨_, hempty, rfl, fun _ => ⟨rfl, rfl, hempty, rfl⟩⟩
  | drw x y n =>
    obtain ⟨is, his, rfl⟩ | ⟨k, hk, rfl⟩ := execDrw_next.1 h
    · exact .inl
        { notRaised := State.not_blockFaults_of_indexBlock his
          regs := fun r hr => State.getV_setV_of_ne _ _ (List.ne_of_not_mem_cons hr)
          display := .inr (.inr ⟨x, y, n, rfl⟩) }
    · exact .inr ⟨k, takesFault_block hk Iff.rfl⟩
  | ldBVx x =>
    obtain ⟨is, his, rfl⟩ | ⟨k, hk, rfl⟩ := execLdBVx_next.1 h
    · rw [State.pokeAll_eq]
      exact .inl
        { notRaised := State.not_blockFaults_of_indexBlock his
          memory := .inr ⟨.inl ⟨x, rfl⟩, is, _, translateBlock_lt his, State.pokeAll_congr is _ rfl rfl⟩ }
    · exact .inr ⟨k, takesFault_block hk Iff.rfl⟩
  | storeRegs x =>
    obtain ⟨is, his, rfl⟩ | ⟨k, hk, rfl⟩ := execStoreRegs_next.1 h
    · rw [State.pokeAll_eq]
      exact .inl
        { notRaised := State.not_blockFaults_of_indexBlock his
          index := .inr (.inr (.inr (.inr (.inl ⟨x, rfl⟩))))
          memory := .inr ⟨.inr ⟨x, rfl⟩, is, _, translateBlock_lt his, State.pokeAll_congr is _ rfl rfl⟩ }
    · exact .inr ⟨k, takesFault_block hk Iff.rfl⟩
  | loadRegs x =>
    obtain ⟨is, his, rfl⟩ | ⟨k, hk, rfl⟩ := execLoadRegs_next.1 h
    · have hregs := sameRegsBut_loadRegs (s := s.preExecute) (bs := is.map s.preExecute.peek)
        ((List.length_map _).trans (translateBlock_length his))
      rw [State.setRegsFrom_eq] at hregs ⊢
      exact .inl
        { notRaised := State.not_blockFaults_of_indexBlock his
          regs := hregs
          index := .inr (.inr (.inr (.inr (.inr ⟨x, rfl⟩)))) }
    · exact .inr ⟨k, takesFault_block hk Iff.rfl⟩
  | skp x =>
    obtain ⟨k, hk, rfl⟩ | ⟨e, he, rfl⟩ := execSkp_next.1 h
    · exact .inl (completes_skip (not_key_raises hk) (by simp [pcAfter, keyLooked_of_keyNumber hk]))
    · exact .inr ⟨e, takesFault_key he Iff.rfl (by rw [Laws.wordNumber]; omega)⟩
  | sknp x =>
    obtain ⟨k, hk, rfl⟩ | ⟨e, he, rfl⟩ := execSknp_next.1 h
    · exact .inl (completes_skip (not_key_raises hk) (by simp [pcAfter, keyLooked_of_keyNumber hk]))
    · exact .inr ⟨e, takesFault_key he Iff.rfl (by rw [Laws.wordNumber]; omega)⟩
  | ldVxK x =>
    obtain ⟨k, hk, rfl⟩ | ⟨hnone, rfl⟩ := execLdVxK_next.1 h
    · have hany : anyKey s = true :=
        List.any_eq_true.2 ⟨k, List.mem_finRange k, (State.lowestKey_some hk).1⟩
      exact .inl { pc := by rw [pcAfter, if_pos hany]; rfl, regs := (writesOnlyRegs_setV s x _).1 }
    · have hany : anyKey s = false := by simp [anyKey, State.lowestKey_none hnone]
      exact .inl { pc := by rw [pcAfter, hany]; rfl }
  | jpV0 nnn =>
    obtain rfl := Host.Outcome.next.inj h
    exact .inl { pc := zextAddr_add_zextByte_toNat nnn (s.getV 0) }
  | seImm | sneImm | seReg | sneReg =>
    obtain rfl := Host.Outcome.next.inj h
    exact .inl (completes_skip id rfl)
  | jp nnn =>
    obtain rfl := Host.Outcome.next.inj h
    exact .inl { pc := zextAddr_toNat nnn }
  | ldI nnn =>
    obtain rfl := Host.Outcome.next.inj h
    exact .inl { index := .inr (.inl ⟨nnn, rfl⟩) }
  | addIVx x =>
    obtain rfl := Host.Outcome.next.inj h
    exact .inl { index := .inr (.inr (.inl ⟨x, rfl⟩)) }
  | ldFVx x =>
    obtain rfl := Host.Outcome.next.inj h
    exact .inl { index := .inr (.inr (.inr (.inl ⟨x, rfl⟩))) }
  | ldImm | addImm | ldReg | orReg | andReg | xorReg | rnd | ldVxDT =>
    obtain rfl := Host.Outcome.next.inj h
    exact .inl { regs := (writesOnlyRegs_setV s _ _).1 }
  | addReg | subReg | shrReg | subnReg | shlReg =>
    obtain rfl := Host.Outcome.next.inj h
    exact .inl { regs := sameRegsBut_setVWithFlag s _ _ _ }
  | cls =>
    obtain rfl := Host.Outcome.next.inj h
    exact .inl { display := .inr (.inl rfl) }
  | ldDTVx | ldSTVx =>
    obtain rfl := Host.Outcome.next.inj h
    exact .inl {}

/-! ## Every step -/

/-- All a step that answers a next state can do. -/
theorem step_cases {s t : State} (h : step s = .next t) :
    s.FAULT = none ∧
      ((∃ k, s.fetch = .error k ∧ t = s.latchFault k none) ∨
        (∃ w i k, s.fetch = .ok w ∧ decode w = .ok i ∧ TakesFault s i t k) ∨
        (∃ w i, s.fetch = .ok w ∧ decode w = .ok i ∧ Completes s i t) ∨
        (∃ w, s.fetch = .ok w ∧ t = s.preExecute)) := by
  obtain ⟨hF, hfetch | ⟨w, i, hw, hd, hx⟩ | ⟨w, e, hw, -, ht⟩⟩ := step_next_cases h
  · exact ⟨hF, .inl hfetch⟩
  · rcases exec_completes_or_takesFault hx with hc | ⟨k, hk⟩
    · exact ⟨hF, .inr (.inr (.inl ⟨w, i, hw, hd, hc⟩))⟩
    · exact ⟨hF, .inr (.inl ⟨w, i, k, hw, hd, hk⟩)⟩
  · exact ⟨hF, .inr (.inr (.inr ⟨w, hw, ht⟩))⟩

theorem Completes.unlatched {s t : State} {i : Instr} (h : Completes s i t) (hF : s.FAULT = none) : t.FAULT = none :=
  h.latch.trans hF

/-- A fetch under `ADDR_POLICY = Fault` that gives a word is at 0xFFE or below. -/
theorem State.pc_le_of_fetch_ok {s : State} {w : Word} (h : s.fetch = .ok w) (hp : s.cfg.addrPolicy = .fault) :
    s.pc.toNat ≤ 4094 := by
  by_contra hc
  rw [State.fetch_outside hp (by omega)] at h
  cases h

/-! ## The canonical form of memory -/

theorem Completes.memoryCanonical {s t : State} {i : Instr} (h : Completes s i t) (hs : MemoryCanonical s) :
    MemoryCanonical t := by
  rw [MemoryCanonical, h.cfg]
  rcases h.memory with hm | ⟨-, is, bs, his, hm⟩
  · rw [hm]
    exact hs
  · have hpoke := State.pokeAll_canonical bs hs his
    rw [State.pokeAll_eq] at hpoke
    rw [hm]
    exact hpoke

/-! ## Where `pc` can go -/

/-- D29: from an address that can be fetched from, with every return address in memory or right behind it. -/
theorem pcAfter_le {s : State} (i : Instr) (hpc : s.pc.toNat ≤ 4094)
    (hslots : ∀ k : Fin 16, s.STACK[k.val].toNat ≤ 0x1000) : pcAfter s i ≤ 0x10FE := by
  have hskip : ∀ c, skipTarget s c ≤ 0x10FE := by
    intro c
    rw [skipTarget]
    split <;> omega
  cases i with
  | jp nnn | call nnn | jpV0 nnn =>
    rw [pcAfter]
    omega
  | sys nnn => exact hpc.trans (by decide)
  | ret =>
    rw [pcAfter]
    split
    · exact (hslots ⟨s.SP.val - 1, by omega⟩).trans (by decide)
    · omega
  | ldVxK x =>
    rw [pcAfter]
    split
    · exact hskip false
    · omega
  | _ => exact hskip _

theorem Completes.pcWithinReach {s t : State} {i : Instr} {w : Word} (h : Completes s i t) (hs : PcWithinReach s)
    (hw : s.fetch = .ok w) : PcWithinReach t := by
  intro hp
  rw [h.cfg] at hp
  obtain ⟨-, hslots⟩ := hs hp
  have hpc := State.pc_le_of_fetch_ok hw hp
  refine ⟨h.pc ▸ pcAfter_le i hpc hslots, fun k => ?_⟩
  rcases h.slots k with hk | hk
  · exact hk ▸ hslots k
  · rw [hk, BitVec.toNat_add]
    simp only [BitVec.toNat_ofNat]
    omega

end Sys2Proof.Machine

namespace Sys2Proof

open Machine

/-- Settles O47: only the two stores touch memory, and a store at the indices of a block keeps the form. -/
theorem everyStepKeepsMemoryCanonical : Obligations.EveryStepKeepsMemoryCanonical := by
  unfold Obligations.EveryStepKeepsMemoryCanonical
  intro s t hs h
  obtain ⟨-, ⟨k, -, rfl⟩ | ⟨w, i, k, -, -, hk⟩ | ⟨w, i, -, -, hc⟩ | ⟨w, -, rfl⟩⟩ := step_cases h
  · exact hs
  · exact hk.latched ▸ hs
  · exact hc.memoryCanonical hs
  · exact hs

/-- Settles O48: a step latches what it has just checked, and a step that latches nothing leaves the latch empty. -/
theorem everyStepKeepsTheFaultLatchTrue : Obligations.EveryStepKeepsTheFaultLatchTrue := by
  unfold Obligations.EveryStepKeepsTheFaultLatchTrue
  intro s t _ h r hr
  obtain ⟨hF, ⟨k, hk, rfl⟩ | ⟨w, i, k, -, hd, hk⟩ | ⟨w, i, -, -, hc⟩ | ⟨w, -, rfl⟩⟩ := step_cases h
  · obtain ⟨hp, -, rfl⟩ := State.fetch_error hk
    obtain rfl := Option.some.inj hr
    exact ⟨rfl, hp, Nat.le_max_right _ _⟩
  · obtain ⟨-, hwf⟩ := encodeOfDecodeIsTheWord w i hd
    obtain rfl := hk.latched
    obtain rfl := Option.some.inj hr
    exact hk.recordTrue hwf
  · exact absurd (hr.symm.trans (hc.unlatched hF)) nofun
  · exact absurd (hr.symm.trans hF) nofun

/-- Settles O49: no instruction goes beyond 0x10FE from an address that was fetched from, and the one address a call
pushes is behind such an address. -/
theorem everyStepKeepsPcWithinReach : Obligations.EveryStepKeepsPcWithinReach := by
  unfold Obligations.EveryStepKeepsPcWithinReach
  intro s t hs h
  obtain ⟨-, ⟨k, -, rfl⟩ | ⟨w, i, k, -, -, hk⟩ | ⟨w, i, hw, -, hc⟩ | ⟨w, hw, rfl⟩⟩ := step_cases h
  · exact hs
  · exact hk.latched ▸ hs
  · exact hc.pcWithinReach hs hw
  · intro hp
    have hpc := State.pc_le_of_fetch_ok hw hp
    refine ⟨?_, (hs hp).2⟩
    rw [State.preExecute_pc, BitVec.toNat_add]
    simp only [BitVec.toNat_ofNat]
    omega

/-- Settles O10: the two ways to take a fault, at fetch and in an instruction, both start from the state before the step. -/
theorem faultingStepChangesOnlyTheLatch : Obligations.FaultingStepChangesOnlyTheLatch := by
  unfold Obligations.FaultingStepChangesOnlyTheLatch
  intro s t r hF h hr
  obtain ⟨-, ⟨k, hk, rfl⟩ | ⟨w, i, k, hw, hd, hk⟩ | ⟨w, i, -, -, hc⟩ | ⟨w, -, rfl⟩⟩ := step_cases h
  · obtain ⟨hp, hge, -⟩ := State.fetch_error hk
    obtain rfl := Option.some.inj hr
    exact ⟨rfl, rfl, ⟨fun _ => ⟨hp, by decide, by omega⟩, fun _ => rfl⟩, nofun⟩
  · obtain ⟨hword, -⟩ := encodeOfDecodeIsTheWord w i hd
    obtain rfl := hk.latched
    obtain rfl := Option.some.inj hr
    refine ⟨rfl, rfl, ⟨nofun, fun ⟨hp, _, hlt⟩ => ?_⟩, ?_⟩
    · have hpc := State.pc_le_of_fetch_ok hw hp
      omega
    · intro v hv
      rw [hw, ← hword]
      exact congrArg Except.ok (Option.some.inj hv)
  · exact absurd (hr.symm.trans (hc.unlatched hF)) nofun
  · exact absurd (hr.symm.trans hF) nofun

/-- Settles O11: an instruction that completes found no condition to raise, one that takes a fault found it. -/
theorem instructionsRaiseExactlyWhenListed : Obligations.InstructionsRaiseExactlyWhenListed := by
  unfold Obligations.InstructionsRaiseExactlyWhenListed
  intro s t i hF h
  rcases exec_completes_or_takesFault h with hc | ⟨k, hk⟩
  · exact iff_of_false (not_not.2 (hc.unlatched hF)) hc.notRaised
  · obtain rfl := hk.latched
    exact iff_of_true nofun hk.raised

/-- Settles O12: what an instruction that completes does to `pc`. -/
theorem pcAfterEveryInstruction : Obligations.PcAfterEveryInstruction := by
  unfold Obligations.PcAfterEveryInstruction
  intro s t i _ h ht
  rcases exec_completes_or_takesFault h with hc | ⟨k, hk⟩
  · exact hc.pc
  · exact absurd hk.latched (State.ne_latchFault ht _ _ _)

/-- Settles O52: a fault entry writes the latch alone, and an instruction that completes writes what is listed for it. -/
theorem onlyTheListedInstructionsWriteEachPart : Obligations.OnlyTheListedInstructionsWriteEachPart := by
  unfold Obligations.OnlyTheListedInstructionsWriteEachPart
  intro s t i h
  rcases exec_completes_or_takesFault h with hc | ⟨k, hk⟩
  · exact ⟨hc.keys, hc.cfg, hc.regs, hc.memory.imp (fun hm => State.peek_of_MEM_eq hm hc.cfg) And.left, hc.display,
      hc.stack, hc.index⟩
  · obtain rfl := hk.latched
    exact ⟨rfl, rfl, fun _ _ => rfl, .inl fun _ => rfl, .inl rfl, .inl ⟨rfl, rfl⟩, .inl rfl⟩

end Sys2Proof

/-! PROOFS. What no step observes (10_state section 8, D18, D19): stack slots at and above `SP`, the sound timer, and, but
for `Cxnn`, how many draws were taken. -/

namespace Sys2Proof.Machine

/-- Two states that differ at most in the three unobserved parts. -/
def AgreeButUnobserved (s s' : State) : Prop :=
  s' = { s with STACK := s'.STACK, ST := s'.ST, draws := s'.draws } ∧
    ∀ k : Fin 16, k.val < s.SP.val → s'.STACK[k.val] = s.STACK[k.val]

theorem AgreeButUnobserved.observed {s s' : State} (h : AgreeButUnobserved s s') :
    s'.pc = s.pc ∧ s'.V = s.V ∧ s'.MEM = s.MEM ∧ s'.cfg = s.cfg ∧ s'.FAULT = s.FAULT := by
  rw [h.1]
  exact ⟨rfl, rfl, rfl, rfl, rfl⟩

/-- From two such states to two such states, and each unobserved part comes from nothing but itself. -/
structure Unobserved (s s' t t' : State) : Prop where
  agree : AgreeButUnobserved t t'
  stack : s'.STACK = s.STACK → t'.STACK = t.STACK := by exact id
  sound : s'.ST = s.ST → t'.ST = t.ST := by exact congrArg countDown
  draws : s'.draws = s.draws → t'.draws = t.draws := by exact congrArg (· + 1)

/-! ## Fault entry and the execute phase -/

theorem unobserved_latchFault {s s' : State} (h : AgreeButUnobserved s s') (k : FaultKind) (op : Option Word) :
    Unobserved s s' (s.latchFault k op) (s'.latchFault k op) := by
  obtain ⟨hs, hslots⟩ := h
  rw [hs]
  exact { agree := ⟨rfl, hslots⟩, sound := id, draws := id }

theorem unobserved_preExecute {s s' : State} (h : AgreeButUnobserved s s') :
    Unobserved s s' s.preExecute s'.preExecute := by
  obtain ⟨hs, hslots⟩ := h
  rw [hs]
  exact { agree := ⟨rfl, hslots⟩ }

theorem unobserved_skipIf {s s' : State} (h : AgreeButUnobserved s s') (c : Bool) :
    Unobserved s s' (s.preExecute.skipIf c) (s'.preExecute.skipIf c) := by
  obtain ⟨hs, hslots⟩ := h
  rw [hs, State.skipIf_eq, State.skipIf_eq]
  exact { agree := ⟨rfl, hslots⟩ }

theorem unobserved_pokeAll {s s' : State} (h : AgreeButUnobserved s s') (is : List Nat) (bs : List Byte) :
    Unobserved s s' (State.pokeAll is bs s.preExecute) (State.pokeAll is bs s'.preExecute) := by
  obtain ⟨-, -, hmem, hcfg, -⟩ := h.observed
  obtain ⟨hs, hslots⟩ := h
  have hm : (State.pokeAll is bs s'.preExecute).MEM = (State.pokeAll is bs s.preExecute).MEM :=
    State.pokeAll_congr is bs hmem hcfg
  rw [State.pokeAll_eq is bs s.preExecute, State.pokeAll_eq is bs s'.preExecute, hm]
  refine { agree := ⟨?_, hslots⟩ }
  rw [hs]
  rfl

theorem unobserved_setRegsFrom {s s' : State} (h : AgreeButUnobserved s s') (k : Nat) (bs : List Byte) :
    Unobserved s s' (State.setRegsFrom k bs s.preExecute) (State.setRegsFrom k bs s'.preExecute) := by
  obtain ⟨-, hregs, -, -, -⟩ := h.observed
  obtain ⟨hs, hslots⟩ := h
  have hv : (State.setRegsFrom k bs s'.preExecute).V = (State.setRegsFrom k bs s.preExecute).V :=
    State.setRegsFrom_congr k bs hregs
  rw [State.setRegsFrom_eq k bs s.preExecute, State.setRegsFrom_eq k bs s'.preExecute, hv]
  refine { agree := ⟨?_, hslots⟩ }
  rw [hs]
  rfl

theorem Unobserved.bumpI {s s' t t' : State} (h : Unobserved s s' t t') (x : Reg) :
    Unobserved s s' (t.bumpI x) (t'.bumpI x) := by
  obtain ⟨⟨ht, hslots⟩, stack, sound, draws⟩ := h
  refine ⟨⟨?_, hslots⟩, stack, sound, draws⟩
  rw [ht]
  rfl

/-! ## Every instruction -/

/-- An instruction takes the unobserved parts into nothing but themselves; only `Cxnn` reads the draw. -/
theorem exec_unobserved {s s' t : State} {i : Instr} (h : AgreeButUnobserved s s')
    (hrnd : ∀ x nn, i = .rnd x nn → s'.draws = s.draws) (hx : exec i s = .next t) :
    ∃ t', exec i s' = .next t' ∧ Unobserved s s' t t' := by
  have hfault := unobserved_latchFault h
  have hskip := unobserved_skipIf h
  have hstore := unobserved_pokeAll h
  have hload := unobserved_setRegsFrom h
  obtain ⟨hs, hslots⟩ := h
  generalize s'.STACK = st, s'.ST = b, s'.draws = n at *
  subst hs
  cases i with
  | sys nnn =>
    obtain rfl := execSys_next.1 hx
    exact ⟨_, execSys_next.2 rfl, hfault _ _⟩
  | call nnn =>
    obtain ⟨hlt, rfl⟩ | ⟨hfull, rfl⟩ := execCall_next.1 hx
    · refine ⟨_, execCall_next.2 (.inl ⟨hlt, rfl⟩), { agree := ⟨rfl, fun k hk => ?_⟩, stack := fun hst => ?_ }⟩
      · have hlow : k.val ≠ s.SP.val → st[k.val] = s.STACK[k.val] :=
          fun hne => hslots k (Nat.lt_of_le_of_ne (Nat.le_of_lt_succ hk) hne)
        simp only [Vector.getElem_set]
        split
        · rfl
        · rename_i hne
          exact hlow (Ne.symm hne)
      · exact congrArg (fun v => v.set s.SP.val (s.pc + 2#16)) hst
    · exact ⟨_, execCall_next.2 (.inr ⟨hfull, rfl⟩), hfault _ _⟩
  | ret =>
    obtain ⟨hpos, rfl⟩ | ⟨hempty, rfl⟩ := execRet_next.1 hx
    · have hpop : st[s.SP.val - 1] = s.STACK[s.SP.val - 1] := hslots ⟨s.SP.val - 1, by omega⟩ (Nat.sub_one_lt hpos.ne')
      refine ⟨_, execRet_next.2 (.inl ⟨hpos, rfl⟩), { agree := ⟨?_, fun k hk => hslots k ?_⟩ }⟩
      · simp only [hpop, State.preExecute]
      · exact Nat.lt_of_lt_of_le hk (Nat.sub_le _ _)
    · exact ⟨_, execRet_next.2 (.inr ⟨hempty, rfl⟩), hfault _ _⟩
  | drw x y m =>
    obtain ⟨is, his, rfl⟩ | ⟨k, hk, rfl⟩ := execDrw_next.1 hx
    · exact ⟨_, execDrw_next.2 (.inl ⟨is, his, rfl⟩), { agree := ⟨rfl, hslots⟩ }⟩
    · exact ⟨_, execDrw_next.2 (.inr ⟨k, hk, rfl⟩), hfault _ _⟩
  | ldBVx x =>
    obtain ⟨is, his, rfl⟩ | ⟨k, hk, rfl⟩ := execLdBVx_next.1 hx
    · exact ⟨_, execLdBVx_next.2 (.inl ⟨is, his, rfl⟩), hstore is _⟩
    · exact ⟨_, execLdBVx_next.2 (.inr ⟨k, hk, rfl⟩), hfault _ _⟩
  | storeRegs x =>
    obtain ⟨is, his, rfl⟩ | ⟨k, hk, rfl⟩ := execStoreRegs_next.1 hx
    · exact ⟨_, execStoreRegs_next.2 (.inl ⟨is, his, rfl⟩), (hstore is _).bumpI x⟩
    · exact ⟨_, execStoreRegs_next.2 (.inr ⟨k, hk, rfl⟩), hfault _ _⟩
  | loadRegs x =>
    obtain ⟨is, his, rfl⟩ | ⟨k, hk, rfl⟩ := execLoadRegs_next.1 hx
    · exact ⟨_, execLoadRegs_next.2 (.inl ⟨is, his, rfl⟩), (hload 0 _).bumpI x⟩
    · exact ⟨_, execLoadRegs_next.2 (.inr ⟨k, hk, rfl⟩), hfault _ _⟩
  | skp x =>
    obtain ⟨k, hk, rfl⟩ | ⟨e, he, rfl⟩ := execSkp_next.1 hx
    · exact ⟨_, execSkp_next.2 (.inl ⟨k, hk, rfl⟩), hskip _⟩
    · exact ⟨_, execSkp_next.2 (.inr ⟨e, he, rfl⟩), hfault _ _⟩
  | sknp x =>
    obtain ⟨k, hk, rfl⟩ | ⟨e, he, rfl⟩ := execSknp_next.1 hx
    · exact ⟨_, execSknp_next.2 (.inl ⟨k, hk, rfl⟩), hskip _⟩
    · exact ⟨_, execSknp_next.2 (.inr ⟨e, he, rfl⟩), hfault _ _⟩
  | ldVxK x =>
    obtain ⟨k, hk, rfl⟩ | ⟨hnone, rfl⟩ := execLdVxK_next.1 hx
    · exact ⟨_, execLdVxK_next.2 (.inl ⟨k, hk, rfl⟩), { agree := ⟨rfl, hslots⟩ }⟩
    · exact ⟨_, execLdVxK_next.2 (.inr ⟨hnone, rfl⟩), { agree := ⟨rfl, hslots⟩ }⟩
  | seImm | sneImm | seReg | sneReg =>
    obtain rfl := Host.Outcome.next.inj hx
    exact ⟨_, rfl, hskip _⟩
  | rnd x nn =>
    obtain rfl := Host.Outcome.next.inj hx
    obtain rfl : n = s.draws := hrnd x nn rfl
    exact ⟨_, rfl, { agree := ⟨rfl, hslots⟩ }⟩
  | ldSTVx x =>
    obtain rfl := Host.Outcome.next.inj hx
    exact ⟨_, rfl, { agree := ⟨rfl, hslots⟩, sound := fun _ => rfl }⟩
  | _ =>
    obtain rfl := Host.Outcome.next.inj hx
    exact ⟨_, rfl, { agree := ⟨rfl, hslots⟩ }⟩

/-! ## Every step -/

/-- A step takes the unobserved parts into nothing but themselves, unless it runs a `Cxnn` after another number of
draws. -/
theorem step_unobserved {s s' t : State} (h : AgreeButUnobserved s s')
    (hrnd : ∀ w x nn, s.fetch = .ok w → decode w = .ok (.rnd x nn) → s'.draws = s.draws) (hx : step s = .next t) :
    ∃ t', step s' = .next t' ∧ Unobserved s s' t t' := by
  obtain ⟨hpc, -, hmem, hcfg, hlatch⟩ := h.observed
  have hfetch : s'.fetch = s.fetch := State.fetch_congr hpc hmem hcfg
  obtain ⟨hF, ⟨k, hk, rfl⟩ | ⟨w, i, hw, hd, hx⟩ | ⟨w, e, hw, hd, rfl⟩⟩ := step_next_cases hx
  all_goals have hF' : s'.FAULT = none := hlatch.trans hF
  · exact ⟨_, step_of_fetch_error hF' (hfetch.trans hk), unobserved_latchFault h k none⟩
  · rw [step_of_fetch_decode hF' (hfetch.trans hw) hd]
    exact exec_unobserved h (fun x nn hi => hrnd w x nn hw (hi ▸ hd)) hx
  · exact ⟨_, step_of_fetch_unrecognized hF' (hfetch.trans hw) hd, unobserved_preExecute h⟩

end Sys2Proof.Machine

namespace Sys2Proof

open Machine

/-- Settles O53: the stale slots are one of the unobserved parts, and the other two are equal here. -/
theorem staleStackSlotsAreNeverObserved : Obligations.StaleStackSlotsAreNeverObserved := by
  unfold Obligations.StaleStackSlotsAreNeverObserved
  intro s s' ⟨hs, hslots⟩
  have hST : s'.ST = s.ST := by rw [hs]
  have hdraws : s'.draws = s.draws := by rw [hs]
  have hagree : AgreeButUnobserved s s' := ⟨by rw [hST, hdraws]; exact hs, hslots⟩
  refine ⟨fun t hx => ?_, fun r hr => ?_⟩
  · obtain ⟨t', hx', ⟨ht, hslots'⟩, -, sound, draws⟩ := step_unobserved hagree (fun _ _ _ _ _ => hdraws) hx
    rw [sound hST, draws hdraws] at ht
    exact ⟨t', hx', ht, hslots'⟩
  · obtain ⟨f, hf, rfl⟩ := step_fault hr
    obtain ⟨-, -, -, -, hlatch⟩ := hagree.observed
    exact step_halted (hlatch.trans hf)

/-- Settles O54: the sound timer is one of the unobserved parts, and the other two are equal here. -/
theorem soundTimerIsReadByNoInstruction : Obligations.SoundTimerIsReadByNoInstruction := by
  unfold Obligations.SoundTimerIsReadByNoInstruction
  intro s s' t hs hx
  rw [AgreeButSound] at hs
  have hstack : s'.STACK = s.STACK := by rw [hs]
  have hdraws : s'.draws = s.draws := by rw [hs]
  have hagree : AgreeButUnobserved s s' := ⟨by rw [hstack, hdraws]; exact hs, fun _ _ => by simp only [hstack]⟩
  obtain ⟨t', hx', ⟨ht, -⟩, stack, -, draws⟩ := step_unobserved hagree (fun _ _ _ _ _ => hdraws) hx
  rw [stack hstack, draws hdraws] at ht
  exact ⟨t', hx', ht⟩

/-- Settles O55: the draw count is one of the unobserved parts for every word but `Cxnn`, whose meaning is one write of
`V[x]`. -/
theorem onlyRandomReadsTheDraw : Obligations.OnlyRandomReadsTheDraw := by
  unfold Obligations.OnlyRandomReadsTheDraw
  intro s s' t hs hx
  rw [AgreeButDraws] at hs
  have hstack : s'.STACK = s.STACK := by rw [hs]
  have hST : s'.ST = s.ST := by rw [hs]
  have hagree : AgreeButUnobserved s s' := ⟨by rw [hstack, hST]; exact hs, fun _ _ => by simp only [hstack]⟩
  by_cases hr : ∃ w x nn, s.fetch = .ok w ∧ decode w = .ok (.rnd x nn)
  · obtain ⟨w, x, nn, hw, hd⟩ := hr
    obtain rfl := Host.Outcome.next.inj (exec_of_step hx hw hd)
    obtain ⟨hpc, -, hmem, hcfg, hlatch⟩ := hagree.observed
    have hx' := step_of_fetch_decode (hlatch.trans (step_next_cases hx).1)
      ((State.fetch_congr hpc hmem hcfg).trans hw) hd
    generalize s'.draws = n at hs
    subst hs
    refine ⟨_, hx', .inr ⟨w, x, nn, hw, hd, fun r hrx => ?_, rfl⟩⟩
    have hne := List.ne_of_not_mem_cons hrx
    exact (State.getV_setV_of_ne _ _ hne).trans (State.getV_setV_of_ne s.preExecute _ hne).symm
  · obtain ⟨t', hx', ⟨ht, -⟩, stack, sound, -⟩ :=
      step_unobserved hagree (fun w x nn hw hd => absurd ⟨w, x, nn, hw, hd⟩ hr) hx
    rw [stack hstack, sound hST] at ht
    exact ⟨t', hx', .inl ht⟩

end Sys2Proof

/-! PROOFS. Registers and ALU (42_alu R89 to R94): the operations that set VF, and the random byte. -/

namespace Sys2Proof.Machine

theorem carryFlag_toNat (a b : Byte) : (carryFlag a b).toNat = if 255 < a.toNat + b.toNat then 1 else 0 := by
  simp only [carryFlag, flagByte_toNat, decide_eq_true_eq]

theorem notBorrowFlag_toNat (a b : Byte) : (notBorrowFlag a b).toNat = if a.toNat < b.toNat then 0 else 1 := by
  simp only [notBorrowFlag, flagByte_toNat, decide_eq_true_eq, ← Nat.not_lt, ite_not]

/-- A meaning that writes a result and then its flag, with both given as numbers. -/
theorem exec_result_and_flag {s : State} {i : Instr} {x : Reg} {r f : Byte} {a b : Nat}
    (h : exec i s = .next (s.preExecute.setVWithFlag x r f)) (hr : r.toNat = a) (hf : f.toNat = b) :
    ∃ t, exec i s = .next t ∧ WritesOnlyRegs [x, VF] s t ∧ (x ≠ VF → (t.getV x).toNat = a) ∧ (t.getV VF).toNat = b := by
  obtain ⟨-, frame⟩ := writesOnlyPc_preExecute s
  refine ⟨_, h, ⟨sameRegsBut_setVWithFlag s x r f, frame⟩, fun hx => ?_, ?_⟩
  · rw [State.getV_setVWithFlag_dest _ _ _ hx, hr]
  · rw [State.getV_setVWithFlag_VF, hf]

end Sys2Proof.Machine

namespace Sys2Proof

open Machine

/-- Settles O17: the meaning writes the sum, then the carry of the operands it read before. -/
theorem addSetsSumAndThenCarry : Obligations.AddSetsSumAndThenCarry := by
  unfold Obligations.AddSetsSumAndThenCarry
  intro s x y
  exact ⟨decodesTo_XY x y, exec_result_and_flag (exec_addReg s x y) (addResult_toNat _ _) (carryFlag_toNat _ _)⟩

/-- Settles O18: `8xy7` is `8xy5` with the operands exchanged. -/
theorem subtractSetsDifferenceAndThenNotBorrow : Obligations.SubtractSetsDifferenceAndThenNotBorrow := by
  unfold Obligations.SubtractSetsDifferenceAndThenNotBorrow
  intro s x y
  exact ⟨⟨decodesTo_XY x y, exec_result_and_flag (exec_subReg s x y) (subResult_toNat _ _) (notBorrowFlag_toNat _ _)⟩,
    ⟨decodesTo_XY x y, exec_result_and_flag (exec_subnReg s x y) (subResult_toNat _ _) (notBorrowFlag_toNat _ _)⟩⟩

/-- Settles O19: the result is worked out from `V[y]`, the flag from `V[x]` before the write. -/
theorem shiftsTakeTheirResultFromVyAndFlagFromVx : Obligations.ShiftsTakeTheirResultFromVyAndFlagFromVx := by
  unfold Obligations.ShiftsTakeTheirResultFromVyAndFlagFromVx
  intro s x y
  exact ⟨⟨decodesTo_XY x y, exec_result_and_flag (exec_shrReg s x y) (shrResult_toNat _) (lowBitFlag_toNat _)⟩,
    ⟨decodesTo_XY x y, exec_result_and_flag (exec_shlReg s x y) (shlResult_toNat _) (highBitFlag_toNat _)⟩⟩

/-- Settles O20: the meaning is one register write, of the draw and the mask bit by bit. -/
theorem randomByteIsTheDrawUnderTheMask : Obligations.RandomByteIsTheDrawUnderTheMask := by
  unfold Obligations.RandomByteIsTheDrawUnderTheMask
  intro s x nn
  refine ⟨decodesTo_XNN x nn, _, exec_rnd s x nn, writesOnlyRegs_setV s x _, rfl, fun k => ?_⟩
  rw [State.getV_setV_same]
  exact BitVec.getLsbD_and

end Sys2Proof

/-! PROOFS. Control flow (41_control_flow R74, R77, R82): the jump with an offset, calls and returns below the stack's
ends. -/

namespace Sys2Proof

open Machine

/-- Settles O22: the meaning is one write of `pc`. -/
theorem jumpWithOffsetAddsV0 : Obligations.JumpWithOffsetAddsV0 := by
  unfold Obligations.JumpWithOffsetAddsV0
  intro s nnn
  exact ⟨decodesTo_NNN nnn, _, exec_jpV0 s nnn, zextAddr_add_zextByte_toNat nnn _, writesOnlyPc_setPc s _⟩

/-- Settles O24: the push and the jump, on the state before the execute phase. -/
theorem callPushesTheAdvancedPcAndJumps : Obligations.CallPushesTheAdvancedPcAndJumps := by
  unfold Obligations.CallPushesTheAdvancedPcAndJumps
  intro s nnn h
  obtain ⟨regs, index, ticked, memory, -, display, control⟩ := writesOnlyPc_preExecute s
  exact ⟨_, execCall_next.2 (.inl ⟨h, rfl⟩), zextAddr_toNat nnn, rfl, Vector.getElem_set_self h,
    fun k hk => Vector.getElem_set_ne h _ (Ne.symm hk), regs, index, ticked, memory, display, control⟩

/-- Settles O25: the pop, on the state before the execute phase. -/
theorem returnPopsIntoPc : Obligations.ReturnPopsIntoPc := by
  unfold Obligations.ReturnPopsIntoPc
  intro s h
  obtain ⟨regs, index, ticked, memory, -, display, control⟩ := writesOnlyPc_preExecute s
  exact ⟨_, execRet_next.2 (.inl ⟨h, rfl⟩), rfl, Nat.sub_add_cancel h, rfl, regs, index, ticked, memory, display, control⟩

/-- Settles O28: the return pops the slot the call pushed, which holds the address after the call. -/
theorem returnResumesAfterTheCall : Obligations.ReturnResumesAfterTheCall := by
  unfold Obligations.ReturnResumesAfterTheCall
  intro s t u nnn h hcall hSP hslot
  obtain ⟨_, rfl⟩ := (execCall_next.1 hcall).resolve_right (fun hfull => h.ne hfull.1)
  have hu : u.SP.val = s.SP.val + 1 := congrArg Fin.val hSP
  refine ⟨_, execRet_next.2 (.inl ⟨hu ▸ Nat.succ_pos _, rfl⟩), ?_, ?_⟩
  · calc u.STACK[u.SP.val - 1] = u.STACK[s.SP.val] := by simp only [hu, Nat.add_sub_cancel]
      _ = s.pc + 2#16 := hslot.trans (Vector.getElem_set_self h)
  · exact Fin.ext (show u.SP.val - 1 = s.SP.val by omega)

end Sys2Proof

/-! PROOFS. Index register (43_index_memory R97, R98): the sum, and the address of a glyph. -/

namespace Sys2Proof

open Machine

/-- Settles O30: the meaning is one write of the index register. -/
theorem addToIndexWrapsAndSetsNoFlag : Obligations.AddToIndexWrapsAndSetsNoFlag := by
  unfold Obligations.AddToIndexWrapsAndSetsNoFlag
  intro s x
  refine ⟨decodesTo_X x, _, exec_addIVx s x, ?_, writesOnlyI_setI s _⟩
  rw [State.setI_I, BitVec.toNat_add, zextByte_toNat]

/-- Settles O31: five times a register's value is still below 2^16. -/
theorem pointAtGlyphIsFiveTimesItsNumber : Obligations.PointAtGlyphIsFiveTimesItsNumber := by
  unfold Obligations.PointAtGlyphIsFiveTimesItsNumber
  intro s x
  refine ⟨decodesTo_X x, _, exec_ldFVx s x, writesOnlyI_setI s _, fun hsrc => ?_, fun hsrc => ?_⟩ <;>
  · rw [State.setI_I, hsrc, glyphAddress, glyphNumber, BitVec.toNat_ofNat]
    omega

end Sys2Proof

/-! PROOFS. Keys and timers (45_keys_timers R104 to R109): the key skips, the wait for a key, the timers. -/

namespace Sys2Proof.Machine

theorem keyNumber_of_accepted {p : KeyIndexPolicy} {v : Byte} (h : v.toNat < 16 ∨ p = .lowNibble) :
    ∃ k, keyNumber p v = .ok k := by
  cases hk : keyNumber p v with
  | ok k => exact ⟨k, rfl⟩
  | error e =>
    obtain ⟨hp, hv, -⟩ := keyNumber_error hk
    rcases h with hlt | hp'
    · omega
    · exact nomatch hp.symm.trans hp'

/-- R107: a pressed key with no lower one pressed is the lowest. -/
theorem State.lowestKey_eq_some {s : State} {k : Fin 16} (hk : s.keyDown k = true)
    (hlow : ∀ j : Fin 16, j.val < k.val → s.keyDown j = false) : s.lowestKey = some k := by
  cases h : s.lowestKey with
  | none => simp [State.lowestKey_none h k] at hk
  | some j =>
    obtain ⟨hj, hlow'⟩ := State.lowestKey_some h
    rcases Nat.lt_trichotomy j.val k.val with hlt | heq | hgt
    · simp [hlow j hlt] at hj
    · rw [Fin.ext heq]
    · simp [hlow' k hgt] at hk

theorem State.lowestKey_eq_none {s : State} (h : ∀ k : Fin 16, s.keyDown k = false) : s.lowestKey = none := by
  simp [State.lowestKey, h]

/-- `Fx0A` with a key pressed: it stores the lowest one and goes on. -/
theorem ldVxK_of_pressed {s t : State} {x : Reg} {k : Fin 16} (h : exec (.ldVxK x) s = .next t)
    (hk : s.keyDown k = true) (hlow : ∀ j : Fin 16, j.val < k.val → s.keyDown j = false) :
    (t.getV x).toNat = k.val ∧ t.pc = s.pc + 2#16 ∧ WritesOnlyRegs [x] s t := by
  obtain rfl := Host.Outcome.next.inj ((exec_ldVxK_of_some x (State.lowestKey_eq_some hk hlow)).symm.trans h)
  refine ⟨?_, rfl, writesOnlyRegs_setV s x _⟩
  rw [State.getV_setV_same, BitVec.toNat_ofNat]
  omega

/-- `Fx0A` with none pressed: it stays. -/
theorem ldVxK_of_released {s t : State} {x : Reg} (h : exec (.ldVxK x) s = .next t)
    (hnone : ∀ k : Fin 16, s.keyDown k = false) : t.pc = s.pc ∧ WritesOnlyPc s t := by
  obtain rfl := Host.Outcome.next.inj ((exec_ldVxK_of_none x (State.lowestKey_eq_none hnone)).symm.trans h)
  exact ⟨rfl, writesOnlyPc_setPc s _⟩

end Sys2Proof.Machine

namespace Sys2Proof

open Machine

/-- Settles O41: both meanings are skips on the key the register numbers. -/
theorem keySkipsFollowTheKeyNumberedByVx : Obligations.KeySkipsFollowTheKeyNumberedByVx := by
  unfold Obligations.KeySkipsFollowTheKeyNumberedByVx
  intro s x hx
  obtain ⟨k, hk⟩ := keyNumber_of_accepted hx
  rw [keyLooked_of_keyNumber hk]
  refine ⟨exec_skip_net_advance (execSkp_next.2 (.inl ⟨k, hk, rfl⟩)) ?_,
    exec_skip_net_advance (execSknp_next.2 (.inl ⟨k, hk, rfl⟩)) ?_⟩ <;>
  cases s.keyDown k <;> rfl

/-- Settles O43: the meaning branches on the lowest pressed key alone. -/
theorem keyWaitStoresTheLowestKeyOrStays : Obligations.KeyWaitStoresTheLowestKeyOrStays := by
  unfold Obligations.KeyWaitStoresTheLowestKeyOrStays
  intro s x
  obtain ⟨t, ht⟩ := exec_answers_next (.ldVxK x) s
  exact ⟨decodesTo_X x, t, ht, fun k hk hlow => ldVxK_of_pressed ht hk hlow, ldVxK_of_released ht⟩

/-- Settles O58: a wait in place, then a wait that ends; in between the host writes the keys alone. -/
theorem keyWaitEndsOnceTheHostPressesAKey : Obligations.KeyWaitEndsOnceTheHostPressesAKey := by
  unfold Obligations.KeyWaitEndsOnceTheHostPressesAKey
  intro s t x ks k hnone ht hk hlow
  obtain ⟨hpc, -⟩ := ldVxK_of_released ht hnone
  obtain ⟨v, hv⟩ := exec_answers_next (.ldVxK x) (t.setKeys ks)
  obtain ⟨hstored, hvpc, frame⟩ := ldVxK_of_pressed hv hk hlow
  have ⟨_, _, _, _, _, _, hkeys, _, _⟩ := frame
  exact ⟨hpc, v, hv, hpc ▸ hvpc, hstored, hkeys, frame⟩

/-- Settles O44: the meaning writes the counted-down timer. -/
theorem readDelayTimerReadsTheDecrementedValue : Obligations.ReadDelayTimerReadsTheDecrementedValue := by
  unfold Obligations.ReadDelayTimerReadsTheDecrementedValue
  intro s x
  refine ⟨decodesTo_X x, _, exec_ldVxDT s x, ?_, writesOnlyRegs_setV s x _⟩
  rw [State.getV_setV_same]
  exact countDown_toNat s.DT

/-- Settles O46: the meaning writes `V[x]` over the sound timer after the count-down. -/
theorem setSoundTimerWritesVxUndecremented : Obligations.SetSoundTimerWritesVxUndecremented := by
  unfold Obligations.SetSoundTimerWritesVxUndecremented
  intro s x
  obtain ⟨regs, index, ⟨countedDown, -⟩, storage⟩ := writesOnlyPc_preExecute s
  exact ⟨decodesTo_X x, _, exec_ldSTVx s x, rfl, countedDown, regs, index, storage⟩

end Sys2Proof

/-! PROOFS. Stores and loads of a block (43_index_memory R99 to R101), and the round trip of source S1. -/

namespace Sys2Proof.Machine

/-- A store of a block on the state before the execute phase writes memory alone. -/
theorem frame_pokeAll_preExecute (s : State) (is : List Nat) (bs : List Byte) :
    let t := State.pokeAll is bs s.preExecute
    SameRegsBut [] s t ∧ t.I = s.I ∧ Ticked s t ∧ SameStack s t ∧ SameDisplay s t ∧ SameControl s t := by
  obtain ⟨regs, index, ticked, -, stack, display, control⟩ := writesOnlyPc_preExecute s
  intro t
  rw [show t = _ from State.pokeAll_eq is bs s.preExecute]
  exact ⟨regs, index, ticked, stack, display, control⟩

/-- A load of a block on the state before the execute phase writes registers alone. -/
theorem frame_setRegsFrom_preExecute (s : State) (k : Nat) (bs : List Byte) :
    Ticked s (State.setRegsFrom k bs s.preExecute) ∧ KeepsStorage s (State.setRegsFrom k bs s.preExecute) := by
  obtain ⟨-, -, ticked, storage⟩ := writesOnlyPc_preExecute s
  rw [State.setRegsFrom_eq]
  exact ⟨ticked, storage⟩

/-- Byte number `k` of a block stored at `I` reads back at index number `k`. -/
theorem peek_pokeAll_indexBlock {s : State} {n k i : Nat} {is : List Nat} {bs : List Byte} {b : Byte}
    (hs : MemoryCanonical s) (his : s.indexBlock n = .ok is) (hn : n ≤ memSize) (hi : is[k]? = some i)
    (hb : bs[k]? = some b) : (State.pokeAll is bs s.preExecute).peek i = b :=
  State.peek_pokeAll_at (s := s.preExecute) hs (translateBlock_lt his) (translateBlock_nodup his hn) hi hb

theorem State.bumpI_I_toNat (s : State) (x : Reg) : (s.bumpI x).I.toNat = (s.I.toNat + x.val + 1) % 65536 := by
  rw [State.bumpI_I, BitVec.toNat_add, BitVec.toNat_ofNat]
  omega

end Sys2Proof.Machine

namespace Sys2Proof

open Machine

/-- Settles O33: the three digits are the bytes stored, in the order of the block's indices. -/
theorem storeDecimalWritesThreeDigits : Obligations.StoreDecimalWritesThreeDigits := by
  unfold Obligations.StoreDecimalWritesThreeDigits
  intro s x i j k hs his
  have hv := (s.getV x).isLt
  have stored {m q : Nat} {b : Byte} (hq : [i, j, k][m]? = some q) (hb : (decimalDigits (s.getV x))[m]? = some b) :=
    peek_pokeAll_indexBlock hs his (by decide) hq hb
  refine ⟨_, execLdBVx_next.2 (.inl ⟨_, his, rfl⟩), ?_, ?_, ?_, fun a ha => State.peek_pokeAll_outside _ s.preExecute ha,
    frame_pokeAll_preExecute s _ _⟩
  · rw [stored (m := 0) rfl rfl, BitVec.toNat_ofNat]
    omega
  · rw [stored (m := 1) rfl rfl, BitVec.toNat_ofNat]
    omega
  · rw [stored (m := 2) rfl rfl, BitVec.toNat_ofNat]
    omega

/-- Settles O34: register `r` is byte number `r` of the block stored. -/
theorem storeRegistersWritesV0ToVxAndAdvancesI : Obligations.StoreRegistersWritesV0ToVxAndAdvancesI := by
  unfold Obligations.StoreRegistersWritesV0ToVxAndAdvancesI
  intro s x is hs his
  obtain ⟨regs, index, frame⟩ := frame_pokeAll_preExecute s is (s.regsBelow (x.val + 1))
  refine ⟨_, execStoreRegs_next.2 (.inl ⟨is, his, rfl⟩), fun r i hr hi => ?_, ?_,
    fun a ha => State.peek_pokeAll_outside _ s.preExecute ha, regs, frame⟩
  · exact peek_pokeAll_indexBlock hs his (by simp only [memSize]; omega) hi (State.regsBelow_get s (Nat.lt_succ_of_le hr))
  · rw [State.bumpI_I_toNat, index]

/-- Settles O35: byte number `r` of the block read goes to register `r`, and there is none for a register above `x`. -/
theorem loadRegistersReadsV0ToVxAndAdvancesI : Obligations.LoadRegistersReadsV0ToVxAndAdvancesI := by
  unfold Obligations.LoadRegistersReadsV0ToVxAndAdvancesI
  intro s x is his
  have hlen : is.length = x.val + 1 := translateBlock_length his
  refine ⟨_, execLoadRegs_next.2 (.inl ⟨is, his, rfl⟩), fun r i hr hi => ?_, fun r hr => ?_, ?_,
    frame_setRegsFrom_preExecute s _ _⟩
  · rw [State.getV_bumpI, State.getV_setRegsFrom]
    simp [hi]
  · rw [State.getV_bumpI, State.getV_setRegsFrom, List.getElem?_eq_none (by simp; omega)]
    simp
  · rw [State.bumpI_I_toNat, State.setRegsFrom_eq]
    rfl

/-- Settles O37: the load reads at each index what the store put there. -/
theorem loadAfterStoreRestoresTheRegisters : Obligations.LoadAfterStoreRestoresTheRegisters := by
  unfold Obligations.LoadAfterStoreRestoresTheRegisters
  intro s t u x is hs his hstore hmem hcfg hI
  obtain ⟨t', ht', stored, -, -, -, -, -, -, -, -, hcfg'⟩ := storeRegistersWritesV0ToVxAndAdvancesI s x is hs his
  obtain rfl := Host.Outcome.next.inj (ht'.symm.trans hstore)
  have hisu : u.indexBlock (x.val + 1) = .ok is := by rw [State.indexBlock, hcfg, hcfg', hI]; exact his
  obtain ⟨v, hv, loaded, -⟩ := loadRegistersReadsV0ToVxAndAdvancesI u x is hisu
  refine ⟨v, hv, fun r hr => ?_⟩
  have hlen : r.val < is.length := by rw [translateBlock_length his]; omega
  have hi := List.getElem?_eq_getElem hlen
  calc v.getV r = u.peek is[r.val] := loaded r _ hr hi
    _ = t'.peek is[r.val] := State.peek_of_MEM_eq hmem hcfg _
    _ = s.getV r := stored r _ hr hi

end Sys2Proof

/-! PROOFS. The canonical form of memory (log 11) is unique. -/

namespace Sys2Proof.Machine

variable {font : Vector Byte 80}

/-- An address that does not read as its reset contents is listed, so it is not below the first listed one. -/
theorem Memory.le_of_read_ne_reset {m : Memory} {lo a : Nat} (hm : Memory.wfFrom font lo m = true)
    (h : Memory.read font m a ≠ resetByte font a) : lo ≤ a :=
  Nat.le_of_not_lt fun hlt => h (Memory.read_below hm hlt)

theorem Memory.read_head (k : Nat) (v : Byte) (m : Memory) : Memory.read font ((k, v) :: m) k = v := by
  simp [Memory.read]

/-- The lists agree entry by entry: the lowest address that does not read as reset contents is the first of both. -/
theorem Memory.wfFrom_ext {m m' : Memory} {lo lo' : Nat} (hm : Memory.wfFrom font lo m = true)
    (hm' : Memory.wfFrom font lo' m' = true) (h : ∀ a, Memory.read font m a = Memory.read font m' a) : m = m' := by
  induction m generalizing m' lo lo' with
  | nil =>
    cases m' with
    | nil => rfl
    | cons e m' =>
      obtain ⟨k, v⟩ := e
      obtain ⟨-, -, hv, -⟩ := Memory.wfFrom_cons.1 hm'
      exact absurd ((Memory.read_head k v m').symm.trans (h k).symm) hv
  | cons e m ih =>
    obtain ⟨k, v⟩ := e
    obtain ⟨-, hk, hv, htail⟩ := Memory.wfFrom_cons.1 hm
    have hread := Memory.read_head (font := font) k v m
    cases m' with
    | nil => exact absurd (hread.symm.trans (h k)) hv
    | cons e' m' =>
      obtain ⟨k', v'⟩ := e'
      obtain ⟨-, hk', hv', htail'⟩ := Memory.wfFrom_cons.1 hm'
      have hread' := Memory.read_head (font := font) k' v' m'
      have hle : k' ≤ k := Memory.le_of_read_ne_reset (Memory.wfFrom_cons.2 ⟨Nat.le_refl k', hk', hv', htail'⟩)
        (by rw [← h k, hread]; exact hv)
      have hge : k ≤ k' := Memory.le_of_read_ne_reset (Memory.wfFrom_cons.2 ⟨Nat.le_refl k, hk, hv, htail⟩)
        (by rw [h k', hread']; exact hv')
      obtain rfl : k = k' := Nat.le_antisymm hge hle
      obtain rfl : v = v' := hread.symm.trans ((h k).trans hread')
      congr 1
      refine ih htail htail' fun a => ?_
      by_cases ha : a = k
      · subst ha
        rw [Memory.read_below htail (Nat.lt_succ_self a), Memory.read_below htail' (Nat.lt_succ_self a)]
      · simpa [Memory.read, ha] using h a

end Sys2Proof.Machine

namespace Sys2Proof

open Machine

/-- Settles O51: canonical from any lowest address on, so from 0 on. -/
theorem canonicalMemoriesThatReadAlikeAreEqual : Obligations.CanonicalMemoriesThatReadAlikeAreEqual := by
  unfold Obligations.CanonicalMemoriesThatReadAlikeAreEqual
  exact fun font m m' => Memory.wfFrom_ext

end Sys2Proof

/-! PROOFS. The host's operations (70_reset section 1) and the model's door for one instruction (log 10). -/

namespace Sys2Proof.Machine

@[simp] theorem State.pokeAll_pc (is : List Nat) (bs : List Byte) (s : State) : (State.pokeAll is bs s).pc = s.pc := by
  rw [State.pokeAll_eq]
@[simp] theorem State.pokeAll_cfg (is : List Nat) (bs : List Byte) (s : State) :
    (State.pokeAll is bs s).cfg = s.cfg := by
  rw [State.pokeAll_eq]
@[simp] theorem State.pokeAll_FAULT (is : List Nat) (bs : List Byte) (s : State) :
    (State.pokeAll is bs s).FAULT = s.FAULT := by
  rw [State.pokeAll_eq]

/-- A two-byte block's indices are those of its two addresses. -/
theorem translateBlock_two {p : AddrPolicy} {a : Nat} {is : List Nat} (h : translateBlock p a 2 = .ok is) :
    ∃ i j, translateAddr p a = .ok i ∧ translateAddr p (a + 1) = .ok j ∧ is = [i, j] := by
  cases hi : translateAddr p a with
  | error e => simp [translateBlock, hi] at h
  | ok i =>
    cases hj : translateAddr p (a + 1) with
    | error e => simp [translateBlock, hi, hj] at h
    | ok j =>
      simp only [translateBlock, hi, hj, Except.ok.injEq] at h
      exact ⟨i, j, rfl, rfl, h.symm⟩

/-- Made fetchable, a state has an empty latch, the memory and parameters it had, and a `pc` that can be fetched from. -/
theorem State.fetchable_spec (s : State) :
    s.fetchable.FAULT = none ∧ s.fetchable.MEM = s.MEM ∧ s.fetchable.cfg = s.cfg ∧
      ∃ is, translateBlock s.cfg.addrPolicy s.fetchable.pc.toNat 2 = .ok is := by
  unfold State.fetchable
  split
  · exact ⟨rfl, rfl, rfl, _, by assumption⟩
  · exact ⟨rfl, rfl, rfl, _, (translateBlock_eq _ _ _).trans (if_neg (by simp [programBase]))⟩

/-- The word placed is the word the next fetch gives. -/
theorem State.fetch_placeWord {s : State} (hs : MemoryCanonical s) (w : Word) :
    (s.placeWord w).FAULT = none ∧ (s.placeWord w).fetch = .ok w := by
  obtain ⟨hF, hmem, hcfg, is, his⟩ := s.fetchable_spec
  rw [← hcfg] at his
  have hplaced : s.placeWord w = State.pokeAll is [highByte w, lowByte w] s.fetchable := by
    rw [State.placeWord, his]
  have hcanonical : MemoryCanonical s.fetchable := by
    rw [MemoryCanonical, hmem, hcfg]
    exact hs
  have stored {k i : Nat} {b : Byte} (hi : is[k]? = some i) (hb : [highByte w, lowByte w][k]? = some b) :=
    State.peek_pokeAll_at hcanonical (translateBlock_lt his) (translateBlock_nodup his (by decide)) hi hb
  obtain ⟨i, j, hi, hj, rfl⟩ := translateBlock_two his
  have hhigh := stored (k := 0) rfl rfl
  have hlow := stored (k := 1) rfl rfl
  rw [hplaced, State.pokeAll_FAULT]
  refine ⟨hF, ?_⟩
  rw [State.fetch_of_translate (a := i) (b := j) (by simpa using hi) (by simpa using hj), hhigh, hlow,
    wordOfBytes_high_low]

end Sys2Proof.Machine

namespace Sys2Proof

open Machine

/-- Settles O50: memory lists nothing, the latch is empty, and every slot is 0. -/
theorem resetMeetsTheInvariants : Obligations.ResetMeetsTheInvariants := by
  unfold Obligations.ResetMeetsTheInvariants
  refine fun c => ⟨Memory.wf_nil, ?_, fun _ => ⟨show (0x200#16).toNat ≤ 0x10FE by decide, fun k => ?_⟩⟩
  · intro r hr
    cases hr
  · simp [State.resetWith]

/-- Settles O56: an empty memory reads as reset contents, and every other field is written by the reset. -/
theorem hostResetLeavesTheResetValues : Obligations.HostResetLeavesTheResetValues := by
  unfold Obligations.HostResetLeavesTheResetValues
  intro s
  exact ⟨fun a h => dif_pos h, fun a h => dif_neg (Nat.not_lt.2 h), fun r => Vector.getElem_replicate _,
    fun k => Vector.getElem_replicate _, fun k => Vector.getElem_replicate _, Display.lit_blank, rfl, rfl, rfl, rfl, rfl,
    rfl, rfl, rfl⟩

/-- Settles O57: the copy is a store of a block whose indices are the addresses from 0x200 on. -/
theorem loadProgramCopiesTheImageOrRefusesIt : Obligations.LoadProgramCopiesTheImageOrRefusesIt := by
  unfold Obligations.LoadProgramCopiesTheImageOrRefusesIt
  intro s bytes hs
  refine ⟨fun h => if_pos h, fun h => ?_⟩
  have hlt : ∀ i ∈ List.range' programBase bytes.length, i < memSize := by
    intro i hi
    have := List.mem_range'_1.1 hi
    simp only [programBase, memSize] at *
    omega
  refine ⟨_, if_neg (Nat.not_lt.2 h), State.pokeAll_canonical bytes hs hlt, State.pokeAll_eq _ _ s, fun k b hb => ?_,
    fun a ha => State.peek_pokeAll_outside bytes s fun hmem => ?_⟩
  · have hk : k < bytes.length := (List.getElem?_eq_some_iff.1 hb).1
    exact State.peek_pokeAll_at hs hlt List.nodup_range' (by simp [programBase, hk]) hb
  · have := List.mem_range'_1.1 hmem
    simp only [programBase] at this
    omega

/-- Settles O59: the next fetch gives the placed word. -/
theorem placedWordIsRunByTheNextStep : Obligations.PlacedWordIsRunByTheNextStep := by
  unfold Obligations.PlacedWordIsRunByTheNextStep
  intro s w hs
  have hw : BitVec.ofNat 16 (w % 2 ^ 16) = BitVec.ofNat 16 w := BitVec.eq_of_toNat_eq (by simp)
  rw [State.withFetchWord, hw]
  obtain ⟨hF, hfetch⟩ := State.fetch_placeWord hs (BitVec.ofNat 16 w)
  exact step_of_fetch hF hfetch

end Sys2Proof

/-! PROOFS. Display (44_display R103): a draw, and the second draw of source S6. -/

namespace Sys2Proof.Machine

/-- The cells the model toggles are the cells the statements call covered. -/
theorem mem_spriteCells_iff_covers {s : State} {is : List Nat} {px py : Nat} {c : Fin 64} {r : Fin 32} :
    (c, r) ∈ spriteCells px py (is.map s.peek) ↔ SpriteCovers s is px py c r := by
  simp only [mem_spriteCells, mem_spriteRow, SpriteCovers, List.getElem?_map, Option.map_eq_some_iff, wrapCol, wrapRow,
    Fin.ext_iff]
  constructor
  · rintro ⟨k, _, ⟨i, hi, rfl⟩, j, hj, hbit, hc, hr⟩
    exact ⟨k, i, j, hi, hj, hbit, hc.symm, hr.symm⟩
  · rintro ⟨k, i, j, hi, hj, hbit, hc, hr⟩
    exact ⟨k, _, ⟨i, hi, rfl⟩, j, hj, hbit, hc.symm, hr.symm⟩

theorem State.getV_drawSprite_VF (s : State) (px py : Nat) (bs : List Byte) :
    (s.drawSprite px py bs).getV VF = collisionFlag (plot (spriteCells px py bs) s.DISP false).2 :=
  State.getV_setV_same _ _ _

/-- A sprite with a byte that is not 0 covers a cell. -/
theorem exists_covered {s : State} {is : List Nat} {i : Nat} (px py : Nat) (hi : i ∈ is) (hb : s.peek i ≠ 0#8) :
    ∃ c r, SpriteCovers s is px py c r := by
  obtain ⟨k, hk⟩ := List.mem_iff_getElem?.1 hi
  obtain ⟨m, hm, hbit⟩ : ∃ m, m < 8 ∧ (s.peek i).getLsbD m = true := by
    by_contra hc
    exact hb (BitVec.eq_of_getLsbD_eq fun m hm => by simpa using fun h => hc ⟨m, hm, h⟩)
  have hbit' : (s.peek i).getLsbD (7 - (7 - m)) = true := by rwa [show 7 - (7 - m) = m by omega]
  exact ⟨wrapCol (px + (7 - m)), wrapRow (py + k), k, i, 7 - m, hk, by omega, hbit', rfl, rfl⟩

/-- Which cells are covered depends on the sprite's bytes alone. -/
theorem spriteCovers_congr {s u : State} (h : ∀ a, u.peek a = s.peek a) (is : List Nat) (px py : Nat) :
    SpriteCovers u is px py = SpriteCovers s is px py := by
  funext c r
  simp only [SpriteCovers, h]

end Sys2Proof.Machine

namespace Sys2Proof

open Machine

/-- Settles O39: a sprite of at most 15 rows toggles no cell twice, so plotting it inverts the covered cells, and hits when
one of them was lit. -/
theorem drawInvertsTheCoveredCellsAndSetsCollision : Obligations.DrawInvertsTheCoveredCellsAndSetsCollision := by
  unfold Obligations.DrawInvertsTheCoveredCellsAndSetsCollision
  intro s x y n is his covered
  have hnodup : (spriteCells (s.getV x).toNat (s.getV y).toNat (is.map s.peek)).Nodup := by
    apply spriteCells_nodup
    rw [List.length_map, translateBlock_length his]
    omega
  have hlit (c : Fin 64) (r : Fin 32) := plot_lit hnodup s.DISP false c r
  have hhit := plot_hit hnodup s.DISP false
  simp only [mem_spriteCells_iff_covers, Prod.exists, Bool.false_eq_true, false_or] at hhit
  obtain ⟨-, index, ticked, memory, stack, -, control⟩ := writesOnlyPc_preExecute s
  refine ⟨_, execDrw_next.2 (.inl ⟨is, his, rfl⟩), fun c r hc => (hlit c r).trans (if_pos (mem_spriteCells_iff_covers.2 hc)),
    fun c r hc => (hlit c r).trans (if_neg (mt mem_spriteCells_iff_covers.1 hc)), fun h => ?_, fun h => ?_,
    fun r hr => State.getV_setV_of_ne _ _ (List.ne_of_not_mem_cons hr), index, ticked, memory, stack, control⟩
  · exact (State.getV_drawSprite_VF _ _ _ _).trans (congrArg collisionFlag (hhit.2 h))
  · exact (State.getV_drawSprite_VF _ _ _ _).trans (congrArg collisionFlag (Bool.eq_false_iff.2 fun hc => h (hhit.1 hc)))

/-- Settles O40: the second draw covers the cells of the first, which on a display that was clear are now lit. -/
theorem drawingTwiceRestoresTheDisplay : Obligations.DrawingTwiceRestoresTheDisplay := by
  unfold Obligations.DrawingTwiceRestoresTheDisplay
  intro s t u x y n is his hdraw hI hcfg hmem hdisp hx hy
  have hisu : u.indexBlock n.val = .ok is := by rw [State.indexBlock, hcfg, hI]; exact his
  obtain ⟨t', ht', inverted, kept, -⟩ := drawInvertsTheCoveredCellsAndSetsCollision s x y n is his
  obtain rfl := Host.Outcome.next.inj (ht'.symm.trans hdraw)
  obtain ⟨v, hv, inverted', kept', collides, -⟩ := drawInvertsTheCoveredCellsAndSetsCollision u x y n is hisu
  rw [hx, hy, spriteCovers_congr (State.peek_of_MEM_eq hmem hcfg), hdisp] at inverted' kept' collides
  refine ⟨v, hv, fun c r => ?_, fun hclear ⟨i, hi, hb⟩ => collides ?_⟩
  · by_cases hc : SpriteCovers s is (s.getV x).toNat (s.getV y).toNat c r
    · rw [inverted' c r hc, inverted c r hc, Bool.not_not]
    · rw [kept' c r hc, kept c r hc]
  · obtain ⟨c, r, hc⟩ := exists_covered (s.getV x).toNat (s.getV y).toNat hi hb
    refine ⟨c, r, hc, ?_⟩
    rw [inverted c r hc, hclear]
    rfl

end Sys2Proof
